-- ==== Sys2Proof/Word.lean ====
section
/-! DEFINITION. The widths of the block's ports (spec 10_state.md R22, R23, R27, R31; 30_encoding.md R62, R70). -/

namespace Sys2Proof

/-- An 8-bit port: an operand line or `value` (R22, R23). Bit 0 is the least significant (R7). -/
abbrev Byte := BitVec 8

/-- The 3-bit operation select `op[2:0]` (R22, R61), a raw code: `110` and `111` can stand on it (R66). -/
abbrev OpCode := BitVec 3

/-- The step cursor: "a type with exactly eleven values" (R27). -/
abbrev Cursor := Fin 11

/-- What the host can issue as an instruction: an operation word of format OPW (19 bits, R62), a sequencer
command of format SEQ (2 bits, R70), or a number that is a word of neither format (`nbits` wide, value `w`),
which the decoder rejects by name: "There is one format" (R62). -/
inductive CommandWord where
  | opw (w : BitVec 19)
  | seq (c : BitVec 2)
  | other (nbits w : Nat)
  deriving DecidableEq, Repr

end Sys2Proof
end

