-- ==== Sys2Proof/Syntax.lean ====
section
/-! DEFINITION. The operation set (30_encoding.md R60) and the instructions: one constructor of `Instr` for each
row of opcode_table.json. -/

namespace Sys2Proof

/-- The closed set of operations of the ALU (R60): "exactly six constructors". -/
inductive AluOp where
  | add | sub | and | or | xor | not
  deriving DecidableEq, Repr

/-- The nine rows of the opcode table. The operands are the literal values of fields `a` and `b` (R63). NOT keeps
its ignored field `b` (R64), RESET its ignored advance-request bit (R70: `10` and `11`), so that no bit of a word
is dropped. -/
inductive Instr where
  /-- ADD a, b (R100). -/
  | add (a b : Byte)
  /-- SUB a, b (R103). -/
  | sub (a b : Byte)
  /-- AND a, b (R120). -/
  | and (a b : Byte)
  /-- OR a, b (R121). -/
  | or (a b : Byte)
  /-- XOR a, b (R122). -/
  | xor (a b : Byte)
  /-- NOT a (R123); `b` is kept and ignored. -/
  | not (a b : Byte)
  /-- IDLE: no request (R154). -/
  | idle
  /-- ADVANCE (R152). -/
  | advance
  /-- RESET (R153); `advanceToo` is bit 0 of `seq_cmd`, ignored because RESET wins (R155). -/
  | reset (advanceToo : Bool)
  deriving DecidableEq, Repr

end Sys2Proof
end

