-- ==== Sys2Proof/WellFormed.lean ====
section
/-! DEFINITION. Which instructions and words are well formed (30_encoding.md R66, R67, R70). -/

namespace Sys2Proof

/-- R67: "for the six legal `op` codes every one of the 65536 (`a`, `b`) pairs is legal"; R70: no sequencer command
is reserved. An operand outside [0, 255] cannot be written in an 8-bit field (R22), so every `Instr` is well formed. -/
def Instr.wellFormed : Instr → Bool
  | .add _ _ => true
  | .sub _ _ => true
  | .and _ _ => true
  | .or _ _ => true
  | .xor _ _ => true
  | .not _ _ => true
  | .idle => true
  | .advance => true
  | .reset _ => true

/-- The words that stand for an instruction: operation words `0x00000` to `0x5FFFF` (R65, R66), every sequencer
command (R70), and nothing of another format. -/
def CommandWord.wellFormed : CommandWord → Bool
  | .opw w => decide (w.toNat < 0x60000)
  | .seq _ => true
  | .other _ _ => false

end Sys2Proof
end

