-- ==== Sys2Proof/Decode.lean ====
section
/-! DEFINITION. Decoding and encoding of operation words and sequencer commands (30_encoding.md R61 to R66, R70, R71),
and the numbers of opcode_table.json as words. -/

namespace Sys2Proof

/-- Why a word stands for no instruction. -/
inductive Invalid where
  /-- `op` is `110` or `111` (R66). -/
  | reservedOperation
  /-- The number is a word neither of format OPW nor of format SEQ (R62, R70). -/
  | noSuchFormat
  deriving DecidableEq, Repr

/-- What the decoder answers: R71's operation, or its `invalid`, by name. -/
inductive Decoded where
  | instr (i : Instr)
  | invalid (why : Invalid)
  deriving DecidableEq, Repr

/-- The code of an operation (table of R61). -/
def AluOp.code : AluOp → OpCode
  | .add => 0b000
  | .sub => 0b001
  | .and => 0b010
  | .or  => 0b011
  | .xor => 0b100
  | .not => 0b101

/-- The operation a code selects; `none` for the reserved codes `110` and `111` (R61, R66). -/
def AluOp.ofCode (c : OpCode) : Option AluOp :=
  match c.toNat with
  | 0 => some .add
  | 1 => some .sub
  | 2 => some .and
  | 3 => some .or
  | 4 => some .xor
  | 5 => some .not
  | _ => none

/-- The ALU instruction with operation `op` and operand fields `a`, `b` (R63). -/
def AluOp.instr (op : AluOp) (a b : Byte) : Instr :=
  match op with
  | .add => .add a b
  | .sub => .sub a b
  | .and => .and a b
  | .or  => .or a b
  | .xor => .xor a b
  | .not => .not a b

/-- Field `op`, bits 18..16 of an operation word (R62). -/
def opField (w : BitVec 19) : OpCode := w.extractLsb' 16 3

/-- Field `a`, bits 15..8 of an operation word (R62). -/
def aField (w : BitVec 19) : Byte := w.extractLsb' 8 8

/-- Field `b`, bits 7..0 of an operation word (R62). -/
def bField (w : BitVec 19) : Byte := w.extractLsb' 0 8

/-- The decoder of operation words (R71). -/
def decodeOpw (w : BitVec 19) : Decoded :=
  match AluOp.ofCode (opField w) with
  | some op => .instr (op.instr (aField w) (bField w))
  | none => .invalid .reservedOperation

/-- The decoder of sequencer commands (R70): bit 1 is the reset request, bit 0 the advance request; reset wins. -/
def decodeSeq (c : BitVec 2) : Instr :=
  if c.getLsbD 1 then .reset (c.getLsbD 0)
  else if c.getLsbD 0 then .advance
  else .idle

/-- The decoder, total on every word the host can issue. -/
def decode : CommandWord → Decoded
  | .opw w => decodeOpw w
  | .seq c => .instr (decodeSeq c)
  | .other _ _ => .invalid .noSuchFormat

/-- `OPW = (op << 16) | (a << 8) | b` (R62). -/
def encodeOpw (op : AluOp) (a b : Byte) : BitVec 19 := op.code ++ a ++ b

/-- The word of an instruction (R62, R65, R70). -/
def encode : Instr → CommandWord
  | .add a b => .opw (encodeOpw .add a b)
  | .sub a b => .opw (encodeOpw .sub a b)
  | .and a b => .opw (encodeOpw .and a b)
  | .or a b  => .opw (encodeOpw .or a b)
  | .xor a b => .opw (encodeOpw .xor a b)
  | .not a b => .opw (encodeOpw .not a b)
  | .idle => .seq 0b00
  | .advance => .seq 0b01
  | .reset advanceToo => .seq (if advanceToo then 0b11 else 0b10)

/-- The `match` and `mask` columns of an operation's row in the opcode map (R65). -/
def AluOp.row : AluOp → BitVec 19 × BitVec 19
  | .add => (0x00000, 0x70000)
  | .sub => (0x10000, 0x70000)
  | .and => (0x20000, 0x70000)
  | .or  => (0x30000, 0x70000)
  | .xor => (0x40000, 0x70000)
  | .not => (0x50000, 0x70000)

/-- "an OPW `w` selects the row when `w & mask == match`" (R65). -/
def AluOp.selects (op : AluOp) (w : BitVec 19) : Bool := w &&& op.row.2 == op.row.1

/-- The word whose bits are the number `w`, numbered as opcode_table.json numbers them. The table has two formats, of
19 and 2 bits, which in whole bytes are 24 and 8; bits above a format's width exist on no port (log entry 4). -/
def CommandWord.ofNumber (nbits w : Nat) : CommandWord :=
  if nbits < 19 then
    if w < 2 ^ 2 then .seq (BitVec.ofNat 2 w) else .other nbits w
  else
    if w < 2 ^ 19 then .opw (BitVec.ofNat 19 w) else .other nbits w

/-- The instruction the decoder reads from the bits `w` of an opcode-table row. -/
def decodeTableWord (nbits w : Nat) : Option Instr :=
  match decode (CommandWord.ofNumber nbits w) with
  | .instr i => some i
  | .invalid _ => none

end Sys2Proof
end

