-- ==== Sys2Proof/Machine/State.lean ====
section
/-! DEFINITION. The state of the machine as plain data: the block's one register (10_state.md R26) and, apart from it,
what the host presents at the ports and will ask for next; the reasons a step stops; the state after reset. -/

namespace Sys2Proof.Machine

/-- One request of the host (20_memory.md R45, 60_exceptions.md R191). Requests take effect one at a time, in the order
the host issues them. -/
inductive Request where
  /-- An operation word (present `a`, `b`, `op` and evaluate) or a sequencer command. -/
  | issue (w : CommandWord)
  /-- The host changes the input lines and asks for nothing; any code may stand on `op` (R28, R156, R169). -/
  | present (a b : Byte) (op : OpCode)
  /-- The host reads the ALU outputs of the lines as they stand (R45, R84). -/
  | evaluate
  /-- The host reads the step data of a step index (R45, R157, R170). -/
  | describe (stepIndex : Int)
  /-- The source's `compute(a, b, op)` over integers (R12, R22). -/
  | call (a b : Int) (op : OpCode)
  /-- The hardware reset input `rst`, or power-on (70_reset_and_hazards.md R200). -/
  | hardwareReset
  deriving DecidableEq, Repr

/-- The state of the block: "the block has exactly one register" (R26), "There is no other" (R29, R33). -/
structure Block where
  /-- The current step cursor (R26 to R28). -/
  cursor : Cursor
  deriving DecidableEq, Repr

/-- The host's side of the ports. It is NOT state of the block (R33): the three input lines as the host holds them
(R22), and the requests it will issue, oldest first (decision D29, log entry 3). -/
structure HostSide where
  /-- Operand A, port `a` (R22). -/
  a : Byte
  /-- Operand B, port `b` (R22). -/
  b : Byte
  /-- Operation select, port `op` (R22), any of the eight codes (R61, R66). -/
  op : OpCode
  /-- The host's stimulus sequence still to come (R45, D29). -/
  pending : List Request
  deriving DecidableEq, Repr

/-- The block and its host's side. The ALU outputs, the carry chain and the step data are functions of this state and
are stored nowhere (R24, R29, R33): `aluOutputs`, `carryChain`, `stepDataOut`. -/
structure State where
  block : Block
  host : HostSide
  deriving DecidableEq, Repr

/-- "The list of exception causes is empty. A model's step function for this block needs no fault outcome." (R180.)
Nothing raises a fault. -/
inductive Fault where
  deriving DecidableEq, Repr

/-- The model's refusals: an input outside the contract gets no meaning (R181). -/
inductive Refusal where
  /-- Raised only by an arm of `exec` that has no meaning yet; no arm is left so. Safe. -/
  | notModelled (mnemonic : String)
  /-- Raised by `serve` on a word the decoder calls invalid: a reserved `op` code (R66), or a number of no format
  (R62). Safe. -/
  | invalidWord (why : Invalid)
  /-- Raised by `serve` when the host reads ALU outputs or step data, or calls `compute`, with a reserved `op` code:
  "no output value is defined for it" (R66). Safe. -/
  | reservedOperation
  /-- Raised by `serve` on a call over integers with an operand outside [0, 255] (R22, R181). Safe. -/
  | operandOutOfRange
  /-- Raised by `serve` on a read of step data at an index outside 0..10 (R170, R181). Safe. -/
  | stepIndexOutOfRange
  deriving DecidableEq, Repr

/-- The state after hardware reset: "The only piece of state is `cursor` and its reset value is 0" (R200, R32). The
input lines are the host's and have no reset value in the spec: DESIGN CHOICE zeros (log entry 2). No request is
pending: DESIGN CHOICE (log entry 3). -/
def State.reset : State :=
  { block := { cursor := 0 }
    host := { a := 0, b := 0, op := 0, pending := [] } }

end Sys2Proof.Machine
end

