-- ==== Sys2Proof/Machine/Ops.lean ====
section
/-! DEFINITION. The named operations on the ports, the cursor and the list of requests. There is no operation on memory
(20_memory.md R40), and none that takes an exception or returns from one: "Trap entry: does not exist" (60_exceptions.md
R184, R185). -/

namespace Sys2Proof.Machine

/-- The host holds `a`, `b` and `op` on the input lines from now on. It writes nothing of the block: "a change of `a`,
`b` or `op` does not write it" (R28). -/
def driveLines (a b : Byte) (op : OpCode) (s : State) : State :=
  { s with host := { s.host with a := a, b := b, op := op } }

/-- `cursor <- c` (R28). -/
def setCursor (c : Cursor) (s : State) : State :=
  { s with block := { s.block with cursor := c } }

/-- `min(cursor + 1, 10)` (R152). -/
def cursorAfterAdvance (c : Cursor) : Cursor :=
  if h : c.val < 10 then ⟨c.val + 1, by omega⟩ else c

/-- The port `cursor`, 4 bits, "holding the index as an unsigned binary number" (R27, R31). -/
def cursorPort (s : State) : BitVec 4 := BitVec.ofNat 4 s.block.cursor.val

/-- The host's next request, and the state once it has been taken from the list (R45: in the order issued). -/
def takeRequest (s : State) : Option (Request × State) :=
  match s.host.pending with
  | [] => none
  | r :: rest => some (r, { s with host := { s.host with pending := rest } })

/-- The host will issue `r` before all it had planned. -/
def pushRequest (r : Request) (s : State) : State :=
  { s with host := { s.host with pending := r :: s.host.pending } }

end Sys2Proof.Machine
end

