-- ==== Sys2Proof/Machine/Arithmetic.lean ====
section
/-! DEFINITION. The meanings of ADD and SUB (41_arithmetic.md). An ALU instruction presents its operands and its operation
on the input lines; the outputs are then `aluOutputs`, which is `compute` of those lines (40_result_and_flags.md R84): the
block stores neither operands nor results (10_state.md R33). -/

namespace Sys2Proof.Machine

/-- ADD a, b (R100). -/
def execAdd (a b : Byte) (s : State) : Host.Outcome State Fault Refusal :=
  .next (driveLines a b AluOp.add.code s)

/-- SUB a, b (R103). -/
def execSub (a b : Byte) (s : State) : Host.Outcome State Fault Refusal :=
  .next (driveLines a b AluOp.sub.code s)

end Sys2Proof.Machine
end

