-- ==== Sys2Proof/Machine/Logic.lean ====
section
/-! DEFINITION. The meanings of AND, OR, XOR and NOT (42_logic.md). As in Arithmetic.lean, the instruction presents its
inputs and the outputs are `aluOutputs` of the state it leaves (40_result_and_flags.md R84). -/

namespace Sys2Proof.Machine

/-- AND a, b (R120). -/
def execAnd (a b : Byte) (s : State) : Host.Outcome State Fault Refusal :=
  .next (driveLines a b AluOp.and.code s)

/-- OR a, b (R121). -/
def execOr (a b : Byte) (s : State) : Host.Outcome State Fault Refusal :=
  .next (driveLines a b AluOp.or.code s)

/-- XOR a, b (R122). -/
def execXor (a b : Byte) (s : State) : Host.Outcome State Fault Refusal :=
  .next (driveLines a b AluOp.xor.code s)

/-- NOT a (R123); `b` stands on its line and the ALU ignores it (R64). -/
def execNot (a b : Byte) (s : State) : Host.Outcome State Fault Refusal :=
  .next (driveLines a b AluOp.not.code s)

end Sys2Proof.Machine
end

