-- ==== Sys2Proof/Machine/Sequencer.lean ====
section
/-! DEFINITION. The meanings of the sequencer commands (44_step_sequencer.md R152 to R155). None reads `a`, `b` or `op`
(R156). -/

namespace Sys2Proof.Machine

/-- IDLE: `cursor <- cursor` (R154). -/
def execIdle (s : State) : Host.Outcome State Fault Refusal :=
  .next s

/-- ADVANCE: `cursor <- min(cursor + 1, 10)` (R152). -/
def execAdvance (s : State) : Host.Outcome State Fault Refusal :=
  .next (setCursor (cursorAfterAdvance s.block.cursor) s)

/-- RESET: `cursor <- 0`, from any state (R153); an advance requested with it is ignored (R155). -/
def execReset (_advanceToo : Bool) (s : State) : Host.Outcome State Fault Refusal :=
  .next (setCursor 0 s)

end Sys2Proof.Machine
end

