-- ==== Sys2Proof/Machine/Dispatch.lean ====
section
/-! DEFINITION. `exec`: one arm for each row of the opcode table. -/

namespace Sys2Proof.Machine

/-- The meaning of an instruction: each arm calls its own definition. -/
def exec (i : Instr) (s : State) : Host.Outcome State Fault Refusal :=
  match i with
  | .add a b => Sys2Proof.Machine.execAdd a b s
  | .sub a b => Sys2Proof.Machine.execSub a b s
  | .and a b => Sys2Proof.Machine.execAnd a b s
  | .or a b => Sys2Proof.Machine.execOr a b s
  | .xor a b => Sys2Proof.Machine.execXor a b s
  | .not a b => Sys2Proof.Machine.execNot a b s
  | .idle => Sys2Proof.Machine.execIdle s
  | .advance => Sys2Proof.Machine.execAdvance s
  | .reset advanceToo => Sys2Proof.Machine.execReset advanceToo s

end Sys2Proof.Machine
end

