-- ==== Sys2Proof/Config.lean ====
section
/-! DEFINITION. The parameters the spec fixes (00_scope.md R5) and the one it leaves open (R6). -/

namespace Sys2Proof.Config

/-- `totalSteps()`: "11, indexed 0..10, the same for every operation" (R5, R12, R150). -/
def totalSteps : Nat := 11

/-- The entries of the carry chain (R5, R142). -/
def chainLength : Nat := 9

/-- FREE VALUE (log entry 1): `signed_report_value`, the signed number step 10 reports for `SUB a, b` when the true
difference is below -128 (44_step_sequencer.md R165, decision D19). It has no body: no claim can rest on it. -/
opaque signedReportValue : Byte → Byte → Int

end Sys2Proof.Config
end

