-- ==== Sys2Proof/Machine/Operands.lean ====
section
/-! DEFINITION. How operands enter arithmetic: unsigned, exact, masked at the end (00_scope.md R7 to R10, 30_encoding.md
R63). -/

namespace Sys2Proof.Machine

/-- The unsigned value of a line as an exact integer: "each operand enters as its unsigned value" (R8, R63). -/
def unsigned (x : Byte) : Int := (x.toNat : Int)

/-- `sint8(v)`, the two's-complement reading (R10). It defines no output; it is used to say what flags mean. -/
def sint8 (v : Byte) : Int := if v.getLsbD 7 then unsigned v - 256 else unsigned v

/-- `v[i]` (R7). -/
def bitAt (v : Byte) (i : Nat) : Bool := v.getLsbD i

/-- `r & 0xFF = r mod 256` for every integer `r` (R9, R80). -/
def mask8 (r : Int) : Byte := BitVec.ofInt 8 r

/-- Whether an integer is an operand: an unsigned value in [0, 255] (R8, R22). -/
def isOperand (x : Int) : Bool := decide (0 ≤ x ∧ x ≤ 255)

end Sys2Proof.Machine
end

