-- ==== Sys2Proof/Machine/CarryChain.lean ====
section
/-! DEFINITION. The ripple carry chain of the adder (43_carry_chain.md R140, R141, R143). -/

namespace Sys2Proof.Machine

/-- `t_i = a[i] + b[i] + chain[i]`, an integer 0..3 (R140). -/
def bitSum (x y carryIn : Bool) : Nat := x.toNat + y.toNat + carryIn.toNat

/-- The carry out of one bit position: `t_i >> 1` (R140). -/
def carryOut (x y carryIn : Bool) : Bool := bitSum x y carryIn >>> 1 == 1

/-- The sum bit of one position: `t_i & 1` (R141). -/
def sumBit (x y carryIn : Bool) : Bool := bitSum x y carryIn &&& 1 == 1

/-- `chain[i]`, the carry into bit position `i`, rippled from `chain[0] = 0` (R140). -/
def carryInto (a b : Byte) : Nat → Bool
  | 0 => false
  | i + 1 => carryOut (bitAt a i) (bitAt b i) (carryInto a b i)

/-- The nine entries `chain[0..8]`, index 0 first (R140). -/
def carryChain (a b : Byte) : List Bool :=
  (List.range Config.chainLength).map (carryInto a b)

/-- The optional field `carryChain`: present exactly when `op` is ADD (R143, R166). -/
def chainField (op : AluOp) (a b : Byte) : Option (List Bool) :=
  match op with
  | .add => some (carryChain a b)
  | .sub => none
  | .and => none
  | .or  => none
  | .xor => none
  | .not => none

/-- The pin `chain_valid = (op == ADD)` (R143), while `op` is one of the six operations. DEDUCED, the model's reading
(log entry 10): while a reserved code stands on `op`, R143's equation taken alone gives 0, but R66 gives the sequencer's
data outputs no value, and the model follows R66 and answers `none`. -/
def chainValid (s : State) : Option Bool :=
  (AluOp.ofCode s.host.op).map fun op => (chainField op s.host.a s.host.b).isSome

end Sys2Proof.Machine
end

