-- ==== Sys2Proof/Machine/Flags.lean ====
section
/-! DEFINITION. Zero, Negative and the carry/overflow generator (40_result_and_flags.md R81 to R83). -/

namespace Sys2Proof.Machine

/-- `zero = (value == 0)`, from the masked value (R81). -/
def zeroFlag (value : Byte) : Bool := value == 0

/-- `negative = (value[7] == 1)` (R82). -/
def negativeFlag (value : Byte) : Bool := bitAt value 7

/-- Carry, from the result before the mask: carry out of ADD, borrow of SUB, a definite `false` for the logic
operations (R83, R88). -/
def carryFlag (op : AluOp) (raw : Int) : Bool :=
  match op with
  | .add => decide (raw > 255)
  | .sub => decide (raw < 0)
  | .and => false
  | .or  => false
  | .xor => false
  | .not => false

/-- Overflow: signed overflow of ADD; a definite `false` for every other operation, SUB included (R83, R105). -/
def overflowFlag (op : AluOp) (a b value : Byte) : Bool :=
  match op with
  | .add => bitAt a 7 == bitAt b 7 && bitAt value 7 != bitAt a 7
  | .sub => false
  | .and => false
  | .or  => false
  | .xor => false
  | .not => false

end Sys2Proof.Machine
end

