-- ==== Sys2Proof/Machine/Compute.lean ====
section
/-! DEFINITION. `compute` (40_result_and_flags.md R84) and the ALU's outputs as a function of the input lines. -/

namespace Sys2Proof.Machine

/-- The five ALU outputs, the source's ComputationResult (10_state.md R23). -/
structure ComputationResult where
  value : Byte
  zero : Bool
  negative : Bool
  carry : Bool
  overflow : Bool
  deriving DecidableEq, Repr

/-- The unmasked integer result `r` of an operation (table of R80, R84). NOT does not read `b`; its `~a` is
`-a - 1` (R9). -/
def rawResult (op : AluOp) (a b : Byte) : Int :=
  match op with
  | .add => unsigned a + unsigned b
  | .sub => unsigned a - unsigned b
  | .and => unsigned (a &&& b)
  | .or  => unsigned (a ||| b)
  | .xor => unsigned (a ^^^ b)
  | .not => -unsigned a - 1

/-- `compute(a, b, op)`: total, pure, combinational (R84 to R86). -/
def compute (a b : Byte) (op : AluOp) : ComputationResult :=
  let raw := rawResult op a b
  let value := mask8 raw
  { value := value
    zero := zeroFlag value
    negative := negativeFlag value
    carry := carryFlag op raw
    overflow := overflowFlag op a b value }

/-- The ALU output ports: at every instant `compute` of the lines the host holds (R23, R24, R84). `none` while a
reserved code stands on `op`: no output is defined and the model gives none (R66). -/
def aluOutputs (s : State) : Option ComputationResult :=
  (AluOp.ofCode s.host.op).map (compute s.host.a s.host.b)

end Sys2Proof.Machine
end

