-- ==== Sys2Proof/Machine/StepData.lean ====
section
/-! DEFINITION. The data each of the 11 steps reports (44_step_sequencer.md R150, R157 to R166, R170). Label texts are
out of scope (00_scope.md R4). -/

namespace Sys2Proof.Machine

/-- The four kinds of step (table of R150). -/
inductive StepKind where
  | load | latch | bit | output
  deriving DecidableEq, Repr

/-- What a step index selects: R150's table, with the bit position `p = step - 2` of a BIT step (R160). -/
inductive StepShape where
  | load
  | latch
  | bit (p : Fin 8)
  | output
  deriving DecidableEq, Repr

/-- The report of a BIT step (R160 to R164): `bBit` is absent for NOT, the carries for every operation but ADD. -/
structure BitReport where
  p : Fin 8
  aBit : Bool
  bBit : Option Bool
  carryIn : Option Bool
  resultBit : Bool
  carryOut : Option Bool
  deriving DecidableEq, Repr

/-- The kind-specific part of the step data. -/
inductive StepReport where
  /-- Both operands, for NOT too (R158, conflict C7). -/
  | load (a b : Byte)
  /-- The operation; nothing is latched (R159, R151). -/
  | latch (op : AluOp)
  | bit (r : BitReport)
  /-- The value and, where `signed_present` holds, the signed number (R165). -/
  | output (value : Byte) (signed : Option Int)
  deriving DecidableEq, Repr

/-- The step data record (R157). `highlighted` is the mask `hl`: `hl[i] = 1` iff position `i` is in the set. -/
structure StepData where
  kind : StepKind
  highlighted : Byte
  carryChain : Option (List Bool)
  report : StepReport
  deriving DecidableEq, Repr

/-- The row of R150's table a step index falls in. -/
def shapeAt (k : Cursor) : StepShape :=
  if k.val = 0 then .load
  else if k.val = 1 then .latch
  else if h : k.val < 10 then .bit ⟨k.val - 2, by omega⟩
  else .output

/-- The kind of a step (R150). -/
def kindOf : StepShape → StepKind
  | .load => .load
  | .latch => .latch
  | .bit _ => .bit
  | .output => .output

/-- The highlighted positions: `{0, ..., p}` at a BIT step (R160), none at LOAD and LATCH, all eight at OUTPUT (R158,
R159, R165; decision D17). -/
def highlightedAt : StepShape → Byte
  | .load => 0
  | .latch => 0
  | .bit p => BitVec.ofNat 8 (2 ^ (p.val + 1) - 1)
  | .output => BitVec.ofNat 8 (2 ^ 8 - 1)

/-- The result bit `r_p`, defined per operation: the ripple sum for ADD (R161), the bit of the masked difference for SUB
(R162), the direct combination for the logic operations (R163, R164). -/
def resultBitAt (op : AluOp) (a b : Byte) (p : Nat) : Bool :=
  match op with
  | .add => sumBit (bitAt a p) (bitAt b p) (carryInto a b p)
  | .sub => bitAt (compute a b .sub).value p
  | .and => bitAt a p && bitAt b p
  | .or  => bitAt a p || bitAt b p
  | .xor => bitAt a p ^^ bitAt b p
  | .not => !bitAt a p

/-- `b[p]`, in the report of the five binary operations (R160, R164). -/
def reportedB (op : AluOp) (b : Byte) (p : Nat) : Option Bool :=
  match op with
  | .add => some (bitAt b p)
  | .sub => some (bitAt b p)
  | .and => some (bitAt b p)
  | .or  => some (bitAt b p)
  | .xor => some (bitAt b p)
  | .not => none

/-- The carry into position `i`, reported for ADD only (R161 to R164). -/
def reportedCarry (op : AluOp) (a b : Byte) (i : Nat) : Option Bool :=
  match op with
  | .add => some (carryInto a b i)
  | .sub => none
  | .and => none
  | .or  => none
  | .xor => none
  | .not => none

/-- The report of a BIT step at position `p` (R160 to R164). -/
def bitReport (a b : Byte) (op : AluOp) (p : Fin 8) : BitReport :=
  { p := p
    aBit := bitAt a p.val
    bBit := reportedB op b p.val
    carryIn := reportedCarry op a b p.val
    resultBit := resultBitAt op a b p.val
    carryOut := reportedCarry op a b (p.val + 1) }

/-- The signed number of the OUTPUT step: present when `op` is SUB and the true difference is negative; `a - b` down to
-128, and below that the open parameter `signed_report_value` (R165, D19, log entry 1). -/
def signedReport (a b : Byte) (op : AluOp) : Option Int :=
  match op with
  | .add => none
  | .sub =>
    let d := rawResult .sub a b
    if d < 0 then some (if -128 ≤ d then d else Config.signedReportValue a b) else none
  | .and => none
  | .or  => none
  | .xor => none
  | .not => none

/-- The kind-specific fields (R158 to R165). -/
def reportAt (a b : Byte) (op : AluOp) : StepShape → StepReport
  | .load => .load a b
  | .latch => .latch op
  | .bit p => .bit (bitReport a b op p)
  | .output => .output (compute a b op).value (signedReport a b op)

/-- `describeStep(a, b, op, stepIndex)`, a pure function (R157). -/
def describeStep (a b : Byte) (op : AluOp) (k : Cursor) : StepData :=
  { kind := kindOf (shapeAt k)
    highlighted := highlightedAt (shapeAt k)
    carryChain := chainField op a b
    report := reportAt a b op (shapeAt k) }

/-- The step index an integer names; `none` outside 0..10, refused and not clamped (R170). -/
def stepIndexOf (k : Int) : Option Cursor :=
  if h : k.toNat < 11 then (if 0 ≤ k then some ⟨k.toNat, h⟩ else none) else none

/-- The sequencer's data outputs: `describeStep` of the lines of the moment and the current cursor (R157, R169);
`none` while a reserved code stands on `op` (R66). -/
def stepDataOut (s : State) : Option StepData :=
  (AluOp.ofCode s.host.op).map fun op => describeStep s.host.a s.host.b op s.block.cursor

/-- The step data read at a free index (R170); `none` where the read is outside the contract. -/
def stepDataAt (s : State) (k : Int) : Option StepData :=
  match AluOp.ofCode s.host.op, stepIndexOf k with
  | some op, some c => some (describeStep s.host.a s.host.b op c)
  | _, _ => none

/-- A replay is complete when the cursor is at 10, the terminal state (70_reset_and_hazards.md R206). -/
def replayComplete (s : State) : Bool := s.block.cursor == 10

end Sys2Proof.Machine
end

