-- ==== Sys2Proof/Machine/Requests.lean ====
section
/-! DEFINITION. What the machine does with each request of the host (60_exceptions.md R181, R191). -/

namespace Sys2Proof.Machine

/-- An issued word: the decoded instruction is executed; an invalid word is refused by name (R66, R71). -/
def serveWord (w : CommandWord) (s : State) : Host.Outcome State Fault Refusal :=
  match decode w with
  | .instr i => exec i s
  | .invalid why => .refused (.invalidWord why)

/-- A read of the ALU outputs changes nothing (R43, R86); with a reserved code on `op` there is nothing to read (R66). -/
def serveEvaluate (s : State) : Host.Outcome State Fault Refusal :=
  match aluOutputs s with
  | some _ => .next s
  | none => .refused .reservedOperation

/-- A read of the step data changes nothing (R157); an index outside 0..10 is refused (R170), and so is a reserved code
(R66). -/
def serveDescribe (stepIndex : Int) (s : State) : Host.Outcome State Fault Refusal :=
  match stepIndexOf stepIndex with
  | none => .refused .stepIndexOutOfRange
  | some _ =>
    match AluOp.ofCode s.host.op with
    | some _ => .next s
    | none => .refused .reservedOperation

/-- `compute(a, b, op)` over integers: an operand outside [0, 255] is refused, never masked or clamped (R22, D10); in
range it is the same evaluation as the operation word's. -/
def serveCall (a b : Int) (op : OpCode) (s : State) : Host.Outcome State Fault Refusal :=
  if isOperand a && isOperand b then
    match AluOp.ofCode op with
    | some o => exec (o.instr (BitVec.ofInt 8 a) (BitVec.ofInt 8 b)) s
    | none => .refused .reservedOperation
  else .refused .operandOutOfRange

/-- One request, served whole before the next (R45). -/
def serve (r : Request) (s : State) : Host.Outcome State Fault Refusal :=
  match r with
  | .issue w => serveWord w s
  | .present a b op => .next (driveLines a b op s)
  | .evaluate => serveEvaluate s
  | .describe stepIndex => serveDescribe stepIndex s
  | .call a b op => serveCall a b op s
  | .hardwareReset => .next (setCursor 0 s)

/-- The request that issues the word with the bits `w` of an opcode-table row. -/
def requestOfNumber (nbits w : Nat) : Request := .issue (CommandWord.ofNumber nbits w)

end Sys2Proof.Machine
end

