-- ==== Sys2Proof/Machine/Step.lean ====
section
/-! DEFINITION. One step of the machine: the host's next request is taken and served. There is no program counter and
nothing is fetched (10_state.md R21, 20_memory.md R47): a program is a host stimulus sequence (92_eei_decisions.md D29). -/

namespace Sys2Proof.Machine

/-- One step. With no request "the cursor keeps its value indefinitely" (R154, R206). -/
def step (s : State) : Host.Outcome State Fault Refusal :=
  match takeRequest s with
  | some (r, s') => serve r s'
  | none => .next s

/-- `s` with the word of an opcode-table row as the host's very next request. -/
def State.withFetchWord (s : State) (nbits w : Nat) : State :=
  pushRequest (requestOfNumber nbits w) s

end Sys2Proof.Machine
end

