-- ==== Sys2Proof/Machine/Assembly.lean ====
section
/-! DEFINITION. The assembly text of an instruction (30_encoding.md R68), as lists of characters: `assemble` reads one
line, `disassemble` writes one. -/

namespace Sys2Proof.Machine

/-- Why a line is no instruction. -/
inductive AsmError where
  /-- The line has none of the shapes of R68. -/
  | malformed
  /-- The first word is none of the nine mnemonics for this shape (R69: there are no others). -/
  | unknownMnemonic
  /-- "a numeral outside 0..255 is an assembly error ... never silently masked" (R68). -/
  | numeralOutOfRange
  deriving DecidableEq, Repr

/-- What assembling a line answers. -/
inductive AsmResult where
  | ok (i : Instr)
  | error (e : AsmError)
  deriving DecidableEq, Repr

/-- A word of a line, or the comma between operands. -/
inductive Token where
  | word (cs : List Char)
  | comma
  deriving DecidableEq, Repr

/-- The word read so far, if there is one. -/
def endWord (cur : List Char) : List Token :=
  match cur with
  | [] => []
  | c :: cs => [.word (c :: cs)]

/-- The tokens of a line; `;` starts a comment that runs to the end of the line (R68). -/
def tokens (cur : List Char) : List Char → List Token
  | [] => endWord cur
  | c :: cs =>
    if c = ';' then endWord cur
    else if c = ' ' ∨ c = '\t' then endWord cur ++ tokens [] cs
    else if c = ',' then endWord cur ++ .comma :: tokens [] cs
    else tokens (cur ++ [c]) cs

/-- The value of a digit, hexadecimal letters in either case (log entry 8). -/
def digitValue (c : Char) : Option Nat :=
  if 48 ≤ c.toNat ∧ c.toNat ≤ 57 then some (c.toNat - 48)
  else if 65 ≤ c.toNat ∧ c.toNat ≤ 70 then some (c.toNat - 55)
  else if 97 ≤ c.toNat ∧ c.toNat ≤ 102 then some (c.toNat - 87)
  else none

/-- The number a list of digits of `base` writes, most significant first, on top of `acc`. -/
def digitsValue (base acc : Nat) : List Char → Option Nat
  | [] => some acc
  | c :: cs =>
    match digitValue c with
    | some d => if d < base then digitsValue base (acc * base + d) cs else none
    | none => none

/-- A numeral: decimal, `0x` hexadecimal or `0b` binary (R68). -/
def numeralValue : List Char → Option Nat
  | '0' :: 'x' :: c :: cs => digitsValue 16 0 (c :: cs)
  | '0' :: 'b' :: c :: cs => digitsValue 2 0 (c :: cs)
  | c :: cs => digitsValue 10 0 (c :: cs)
  | [] => none

/-- The instruction with the two numerals `x` and `y` as operands. -/
def assembleBinary (mk : Byte → Byte → Instr) (x y : List Char) : AsmResult :=
  match numeralValue x, numeralValue y with
  | some m, some n =>
    if m < 256 ∧ n < 256 then .ok (mk (BitVec.ofNat 8 m) (BitVec.ofNat 8 n)) else .error .numeralOutOfRange
  | _, _ => .error .malformed

/-- `NOT a` "assembles field b = 0" (R64, R68). -/
def assembleNot (x : List Char) : AsmResult := assembleBinary .not x ['0']

/-- The shapes of a line (R68). -/
def assembleTokens : List Token → AsmResult
  | [.word m, .word x, .comma, .word y] =>
    if m = ['A', 'D', 'D'] then assembleBinary .add x y
    else if m = ['S', 'U', 'B'] then assembleBinary .sub x y
    else if m = ['A', 'N', 'D'] then assembleBinary .and x y
    else if m = ['O', 'R'] then assembleBinary .or x y
    else if m = ['X', 'O', 'R'] then assembleBinary .xor x y
    else if m = ['N', 'O', 'T'] then assembleBinary .not x y
    else .error .unknownMnemonic
  | [.word m, .word x] =>
    if m = ['N', 'O', 'T'] then assembleNot x else .error .unknownMnemonic
  | [.word m] =>
    if m = ['I', 'D', 'L', 'E'] then .ok .idle
    else if m = ['A', 'D', 'V', 'A', 'N', 'C', 'E'] then .ok .advance
    else if m = ['R', 'E', 'S', 'E', 'T'] then .ok (.reset false)
    else .error .unknownMnemonic
  | _ => .error .malformed

/-- One line of assembly text. -/
def assemble (line : List Char) : AsmResult := assembleTokens (tokens [] line)

/-- The character of a decimal digit. -/
def digitChar (d : Nat) : Char := Char.ofNat (48 + d)

/-- An operand in decimal, without leading zeros. -/
def decimal (x : Byte) : List Char :=
  let n := x.toNat
  if n < 10 then [digitChar n]
  else if n < 100 then [digitChar (n / 10), digitChar (n % 10)]
  else [digitChar (n / 100), digitChar (n / 10 % 10), digitChar (n % 10)]

/-- `MNEMONIC a, b`. -/
def binaryText (m : List Char) (a b : Byte) : List Char := m ++ ' ' :: decimal a ++ ',' :: ' ' :: decimal b

/-- "A disassembler prints `NOT a` when field `b` is 0 and `NOT a, b` otherwise." (R68.) -/
def disassemble : Instr → List Char
  | .add a b => binaryText ['A', 'D', 'D'] a b
  | .sub a b => binaryText ['S', 'U', 'B'] a b
  | .and a b => binaryText ['A', 'N', 'D'] a b
  | .or a b => binaryText ['O', 'R'] a b
  | .xor a b => binaryText ['X', 'O', 'R'] a b
  | .not a b => if b = 0 then ['N', 'O', 'T', ' '] ++ decimal a else binaryText ['N', 'O', 'T'] a b
  | .idle => ['I', 'D', 'L', 'E']
  | .advance => ['A', 'D', 'V', 'A', 'N', 'C', 'E']
  | .reset _ => ['R', 'E', 'S', 'E', 'T']

end Sys2Proof.Machine
end

