-- ==== Sys2Proof/Safety.lean ====
section
/-! DEFINITION. What a host within its contract does (60_exceptions.md R181, R191), and which requests move the cursor
(10_state.md R28), in the terms claims use. -/

namespace Sys2Proof.Machine

/-- A code of one of the six operations (R61, R66). -/
def legalCode (op : OpCode) : Bool := decide (op.toNat < 6)

/-- The requests that keep to the contract: no reserved code, operands in [0, 255], step index in 0..10 (R181). -/
def Request.inContract : Request → Bool
  | .issue w => w.wellFormed
  | .present _ _ op => legalCode op
  | .evaluate => true
  | .describe k => decide (0 ≤ k ∧ k ≤ 10)
  | .call a b op => isOperand a && isOperand b && legalCode op
  | .hardwareReset => true

/-- The lines carry one of the six codes, and every request to come keeps to the contract. -/
def InContract (s : State) : Prop :=
  legalCode s.host.op = true ∧ s.host.pending.all Request.inContract = true

/-- The requests that are an ADVANCE: `seq_cmd` = `01` (R70). -/
def Request.isAdvance : Request → Bool
  | .issue (.seq c) => c == 0b01
  | .issue (.opw _) => false
  | .issue (.other _ _) => false
  | .present _ _ _ => false
  | .evaluate => false
  | .describe _ => false
  | .call _ _ _ => false
  | .hardwareReset => false

/-- The requests that send the cursor to 0: RESET (`10` or `11`, R70) and hardware reset (R200). -/
def Request.isReset : Request → Bool
  | .issue (.seq c) => c == 0b10 || c == 0b11
  | .issue (.opw _) => false
  | .issue (.other _ _) => false
  | .present _ _ _ => false
  | .evaluate => false
  | .describe _ => false
  | .call _ _ _ => false
  | .hardwareReset => true

/-- Where the requests `rs`, in order, leave the cursor: the state machine of 44_step_sequencer.md section 2 alone. -/
def cursorAfter (c : Nat) (rs : List Request) : Nat :=
  rs.foldl (fun c r => if r.isReset then 0 else if r.isAdvance then min (c + 1) 10 else c) c

end Sys2Proof.Machine
end

