-- ==== Sys2Proof/Certificates/Slice0/Obligations.lean ====
section
/-! DEFINITION. The statements for the provers, `def Obligations.<Name> : Prop`, in the order of spec/'s files. Each
docstring names the rule it formalises, or says that it is derived and from what. -/

open Sys2Proof Sys2Proof.Machine

/-! ### Encoding and decoding (30_encoding.md) -/

/-- Derived from sections 5 and 6 of 30_encoding.md: encoding then decoding is the identity, for every instruction with
every operand at every value. That RESET carries its ignored bit, and so two words, is the model's choice (log entry 6). -/
def Obligations.DecodeOfEncode : Prop :=
  ∀ i : Instr, i.wellFormed = true → decode (encode i) = .instr i

/-- Derived from sections 5 (operation words) and 6 (sequencer commands) of 30_encoding.md: decoding then encoding is the
identity on the words that decode, and the words that decode are exactly the well-formed ones. Two clauses are the model's
choice: that seq_cmd 11 comes back as 11 rests on RESET's keeping its ignored bit (log entry 6; with the three-valued type
the spec prefers it would come back as 10), and that a number of no format does not decode is log entry 4. -/
def Obligations.EncodeOfDecode : Prop :=
  ∀ w : CommandWord,
    (∀ i, decode w = .instr i → encode i = w) ∧ (w.wellFormed = true ↔ ∃ i, decode w = .instr i)

/-- Derived from section 4 of 30_encoding.md: the rows of the opcode map are pairwise disjoint and cover exactly
0x00000 to 0x5FFFF. -/
def Obligations.OpcodeMapDisjointAndComplete : Prop :=
  ∀ w : BitVec 19,
    (∀ o₁ o₂ : AluOp, o₁.selects w = true → o₂.selects w = true → o₁ = o₂) ∧
    ((∃ o : AluOp, o.selects w = true) ↔ w.toNat < 0x60000)

/-- Derived from sections 3 to 5 of 30_encoding.md: the decoder answers the operation whose row the word selects, with
bits 15..8 and 7..0 as operands, and `invalid` by name where no row is selected. -/
def Obligations.DecoderFollowsOpcodeMap : Prop :=
  ∀ w : BitVec 19,
    (∀ o : AluOp, o.selects w = true →
      ∃ a b : Byte, a.toNat = w.toNat / 256 % 256 ∧ b.toNat = w.toNat % 256 ∧
        decode (.opw w) = .instr (o.instr a b)) ∧
    ((∀ o : AluOp, o.selects w = false) → decode (.opw w) = .invalid .reservedOperation)

/-- Derived from sections 6 and 8 of 30_encoding.md: words written out from the spec's encodings. That 10 and 11 give RESET
with its ignored bit kept is the model's choice (log entry 6). -/
def Obligations.HandEncodedWordsDecode : Prop :=
  decode (.opw 0b0000010101000001111) = .instr (.add 42 15) ∧
  decode (.opw 0b0010000010100001010) = .instr (.sub 5 10) ∧
  decode (.opw 0b0100000111111110000) = .instr (.and 15 240) ∧
  decode (.opw 0b0110000111111110000) = .instr (.or 15 240) ∧
  decode (.opw 0b1001111111110101010) = .instr (.xor 255 170) ∧
  decode (.opw 0b1011100101000000000) = .instr (.not 202 0) ∧
  decode (.seq 0b00) = .instr .idle ∧
  decode (.seq 0b01) = .instr .advance ∧
  decode (.seq 0b10) = .instr (.reset false) ∧
  decode (.seq 0b11) = .instr (.reset true)

/-- Derived from section 7 of 30_encoding.md: assembling the text the disassembler prints gives the instruction back. The
second clause is the model's choice (log entry 8): the section has no text for a RESET that carries an advance request, so
the model prints it as RESET and it comes back without that bit. -/
def Obligations.AssembleOfDisassemble : Prop :=
  (∀ i : Instr, (∀ x, i ≠ .reset x) → assemble (disassemble i) = .ok i) ∧
  (∀ x, assemble (disassemble (.reset x)) = .ok (.reset false))

/-- Derived from section 7 of 30_encoding.md: a numeral outside 0..255 is an assembly error, never masked, in either
operand of a line `MNEMONIC x, y` for all six mnemonics and in the operand of a line `NOT x`, with or without a comment.
Which strings are numerals in detail (letter case, leading zeros) is the model's choice (log entry 8). -/
def Obligations.AssemblerRefusesLargeNumerals : Prop :=
  ∀ comment : List Char, comment = [] ∨ (∃ cs, comment = ';' :: cs) →
    (∀ (mnemonic x y : List Char) (m n : Nat),
      mnemonic ∈ [['A', 'D', 'D'], ['S', 'U', 'B'], ['A', 'N', 'D'], ['O', 'R'], ['X', 'O', 'R'], ['N', 'O', 'T']] →
      numeralValue x = some m → numeralValue y = some n → 256 ≤ m ∨ 256 ≤ n →
      assembleTokens [.word mnemonic, .word x, .comma, .word y] = .error .numeralOutOfRange ∧
      assemble (mnemonic ++ ' ' :: (x ++ ',' :: ' ' :: (y ++ comment))) = .error .numeralOutOfRange) ∧
    (∀ (x : List Char) (m : Nat), numeralValue x = some m → 256 ≤ m →
      assembleTokens [.word ['N', 'O', 'T'], .word x] = .error .numeralOutOfRange ∧
      assemble ('N' :: 'O' :: 'T' :: ' ' :: (x ++ comment)) = .error .numeralOutOfRange)

/-! ### The six operations: completion and result (41_arithmetic.md, 42_logic.md) -/

/-- R100: ADD completes in every state; value, carry, overflow, zero and negative are those of the pseudocode, which
reads `a` and `b` and nothing of the state. -/
def Obligations.AddGivesSumAndFlags : Prop :=
  ∀ (a b : Byte) (s : State), ∃ (t : State) (r : ComputationResult),
    exec (.add a b) s = .next t ∧ aluOutputs t = some r ∧
    encode (.add a b) = .opw (0b000#3 ++ a ++ b) ∧
    r.value.toNat = (a.toNat + b.toNat) % 256 ∧
    r.carry = decide (a.toNat + b.toNat > 255) ∧
    r.overflow = (a.getLsbD 7 == b.getLsbD 7 && r.value.getLsbD 7 != a.getLsbD 7) ∧
    r.zero = decide (r.value.toNat = 0) ∧
    r.negative = r.value.getLsbD 7

/-- R103: SUB completes in every state; the value wraps modulo 256, carry is the borrow, overflow is false, zero is true
exactly when the operands are equal. -/
def Obligations.SubGivesDifferenceAndBorrow : Prop :=
  ∀ (a b : Byte) (s : State), ∃ (t : State) (r : ComputationResult),
    exec (.sub a b) s = .next t ∧ aluOutputs t = some r ∧
    encode (.sub a b) = .opw (0b001#3 ++ a ++ b) ∧
    (r.value.toNat : Int) = ((a.toNat : Int) - (b.toNat : Int)) % 256 ∧
    r.carry = decide (a.toNat < b.toNat) ∧
    r.overflow = false ∧
    r.zero = decide (r.value.toNat = 0) ∧
    (r.zero = true ↔ a = b) ∧
    r.negative = r.value.getLsbD 7

/-- R120: AND completes in every state with the bitwise conjunction. -/
def Obligations.AndGivesConjunction : Prop :=
  ∀ (a b : Byte) (s : State), ∃ (t : State) (r : ComputationResult),
    exec (.and a b) s = .next t ∧ aluOutputs t = some r ∧
    encode (.and a b) = .opw (0b010#3 ++ a ++ b) ∧
    (∀ i < 8, r.value.getLsbD i = (a.getLsbD i && b.getLsbD i)) ∧
    r.carry = false ∧ r.overflow = false ∧
    r.zero = decide (r.value.toNat = 0) ∧
    r.negative = (a.getLsbD 7 && b.getLsbD 7)

/-- R121: OR completes in every state with the bitwise inclusive disjunction. -/
def Obligations.OrGivesDisjunction : Prop :=
  ∀ (a b : Byte) (s : State), ∃ (t : State) (r : ComputationResult),
    exec (.or a b) s = .next t ∧ aluOutputs t = some r ∧
    encode (.or a b) = .opw (0b011#3 ++ a ++ b) ∧
    (∀ i < 8, r.value.getLsbD i = (a.getLsbD i || b.getLsbD i)) ∧
    r.carry = false ∧ r.overflow = false ∧
    r.zero = decide (r.value.toNat = 0) ∧
    (r.zero = true ↔ a.toNat = 0 ∧ b.toNat = 0) ∧
    r.negative = (a.getLsbD 7 || b.getLsbD 7)

/-- R122: XOR completes in every state with the bitwise exclusive disjunction; zero exactly when the operands are
equal. -/
def Obligations.XorGivesExclusiveDisjunction : Prop :=
  ∀ (a b : Byte) (s : State), ∃ (t : State) (r : ComputationResult),
    exec (.xor a b) s = .next t ∧ aluOutputs t = some r ∧
    encode (.xor a b) = .opw (0b100#3 ++ a ++ b) ∧
    (∀ i < 8, r.value.getLsbD i = (a.getLsbD i != b.getLsbD i)) ∧
    r.carry = false ∧ r.overflow = false ∧
    r.zero = decide (r.value.toNat = 0) ∧
    (r.zero = true ↔ a = b) ∧
    r.negative = (a.getLsbD 7 != b.getLsbD 7)

/-- R123: NOT completes in every state with `255 - a`, whatever `b` is: two words that differ in field `b` give the same
outputs. -/
def Obligations.NotGivesComplementOfA : Prop :=
  ∀ (a b b' : Byte) (s : State), ∃ (t t' : State) (r : ComputationResult),
    exec (.not a b) s = .next t ∧ aluOutputs t = some r ∧
    exec (.not a b') s = .next t' ∧ aluOutputs t' = some r ∧
    encode (.not a b) = .opw (0b101#3 ++ a ++ b) ∧
    r.value.toNat = 255 - a.toNat ∧
    (∀ i < 8, r.value.getLsbD i = !a.getLsbD i) ∧
    r.carry = false ∧ r.overflow = false ∧
    r.zero = decide (r.value.toNat = 0) ∧
    (r.zero = true ↔ a.toNat = 255) ∧
    r.negative = decide (a.toNat ≤ 127)

/-- R124: after every logic operation carry and overflow are definite zeros, and only three flag strings occur. -/
def Obligations.LogicOperationsClearCarryAndOverflow : Prop :=
  ∀ (op : AluOp) (a b : Byte) (s : State), op ∈ [AluOp.and, .or, .xor, .not] →
    ∃ (t : State) (r : ComputationResult),
      exec (op.instr a b) s = .next t ∧ aluOutputs t = some r ∧
      r.carry = false ∧ r.overflow = false ∧
      r.zero = decide (r.value.toNat = 0) ∧ r.negative = decide (128 ≤ r.value.toNat) ∧
      (r.zero, r.negative) ∈ [(false, false), (true, false), (false, true)]

/-- R85: every operation completes with a result, for every pair of operands and in every state: it never traps, stalls
or answers an error. -/
def Obligations.EveryOperationCompletes : Prop :=
  ∀ (op : AluOp) (a b : Byte) (s : State), ∃ t : State,
    exec (op.instr a b) s = .next t ∧ aluOutputs t = some (compute a b op)

/-- Frame of ADD, SUB, AND, OR, XOR and NOT, derived from section 4 of 10_state.md and section 4 of
40_result_and_flags.md: the cursor and the requests to come are unchanged, and the lines are the operands and the
operation's code. -/
def Obligations.OperationsLeaveTheCursor : Prop :=
  ∀ (op : AluOp) (a b : Byte) (s : State), ∃ t : State,
    exec (op.instr a b) s = .next t ∧
    t.block = s.block ∧ t.host.pending = s.host.pending ∧
    t.host.a = a ∧ t.host.b = b ∧ t.host.op = op.code

/-- R86: an evaluation changes neither its operands, which stand on the lines as given, nor the cursor, nor any later
evaluation, and two evaluations with the same
inputs give the same five outputs whatever requests were served between them. -/
def Obligations.EvaluationsArePure : Prop :=
  ∀ (op : AluOp) (a b : Byte) (s t u v : State) (n : Nat),
    exec (op.instr a b) s = .next t → Sys2Proof.core.run n t = .next u → exec (op.instr a b) u = .next v →
    aluOutputs v = aluOutputs t ∧ t.block = s.block ∧ v.block = u.block ∧
    t.host.a = a ∧ t.host.b = b ∧ t.host.op = op.code ∧
    ∀ (op' : AluOp) (a' b' : Byte), exec (op'.instr a' b') t = exec (op'.instr a' b') s

/-! ### Result, flags and the laws of arithmetic (40_result_and_flags.md, 41_arithmetic.md, 42_logic.md) -/

/-- R80: the value is the low 8 bits of the integer result of the table, and the mask has the effect the table gives. -/
def Obligations.ValueIsLowEightBits : Prop :=
  ∀ a b : Byte,
    (∀ op : AluOp, ((compute a b op).value.toNat : Int) = rawResult op a b % 256) ∧
    rawResult .add a b = a.toNat + b.toNat ∧ 0 ≤ rawResult .add a b ∧ rawResult .add a b ≤ 510 ∧
    ((compute a b .add).value.toNat : Int) =
      (if rawResult .add a b > 255 then rawResult .add a b - 256 else rawResult .add a b) ∧
    rawResult .sub a b = a.toNat - b.toNat ∧ -255 ≤ rawResult .sub a b ∧ rawResult .sub a b ≤ 255 ∧
    ((compute a b .sub).value.toNat : Int) =
      (if rawResult .sub a b < 0 then rawResult .sub a b + 256 else rawResult .sub a b) ∧
    rawResult .and a b = ((a.toNat &&& b.toNat : Nat) : Int) ∧
    rawResult .or a b = ((a.toNat ||| b.toNat : Nat) : Int) ∧
    rawResult .xor a b = ((a.toNat ^^^ b.toNat : Nat) : Int) ∧
    (∀ op ∈ [AluOp.and, .or, .xor], rawResult op a b ≤ 255 ∧
      ((compute a b op).value.toNat : Int) = rawResult op a b) ∧
    rawResult .not a b = -a.toNat - 1 ∧
    ((compute a b .not).value.toNat : Int) = 255 - a.toNat

/-- R81 and R82: Zero is `value == 0`; Negative is bit 7 of the value, equivalently `value >= 128`, and is the sign of
`value` read as two's complement. For every operation. -/
def Obligations.ZeroAndNegativeFromValue : Prop :=
  ∀ (a b : Byte) (op : AluOp),
    ((compute a b op).zero = true ↔ (compute a b op).value.toNat = 0) ∧
    ((compute a b op).negative = true ↔ (compute a b op).value.toNat >>> 7 &&& 1 = 1) ∧
    ((compute a b op).negative = true ↔ 128 ≤ (compute a b op).value.toNat) ∧
    ((compute a b op).negative = true ↔ sint8 (compute a b op).value < 0)

/-- R83: carry and overflow by operation, the definite `false` of SUB's overflow and of both flags of the logic
operations included. -/
def Obligations.CarryAndOverflowGenerator : Prop :=
  ∀ a b : Byte,
    (compute a b .add).carry = decide (a.toNat + b.toNat > 255) ∧
    (compute a b .add).overflow =
      decide (a.getLsbD 7 = b.getLsbD 7 ∧ (compute a b .add).value.getLsbD 7 ≠ a.getLsbD 7) ∧
    (compute a b .sub).carry = decide (a.toNat < b.toNat) ∧
    (compute a b .sub).overflow = false ∧
    (∀ op ∈ [AluOp.and, .or, .xor, .not], (compute a b op).carry = false ∧ (compute a b op).overflow = false)

/-- Derived from section 2 of 40_result_and_flags.md and section 2.7 of 95_test_vectors.md: the flag strings that cannot
occur. -/
def Obligations.UnreachableFlagStrings : Prop :=
  ∀ (a b : Byte) (op : AluOp),
    ¬((compute a b op).zero = true ∧ (compute a b op).negative = true) ∧
    ((compute a b op).overflow = true → op = .add) ∧
    ((compute a b op).carry = true → op = .add ∨ op = .sub) ∧
    (op = .add →
      ¬((compute a b op).negative = true ∧ (compute a b op).carry = true ∧ (compute a b op).overflow = true) ∧
      ¬((compute a b op).negative = false ∧ (compute a b op).carry = false ∧ (compute a b op).overflow = true))

/-- Derived from section 3 of 40_result_and_flags.md: in both arithmetic operations Carry is true exactly when the mask
changed the result; for SUB that is a borrow. -/
def Obligations.CarryMarksMaskedResult : Prop :=
  ∀ (a b : Byte) (op : AluOp), op ∈ [AluOp.add, .sub] →
    ((compute a b op).carry = true ↔ rawResult op a b ≠ ((compute a b op).value.toNat : Int))

/-- Derived from section 1 of 41_arithmetic.md: the equivalent forms of ADD's overflow, and what its absence means. -/
def Obligations.AddOverflowEquivalentForms : Prop :=
  ∀ a b : Byte,
    ((compute a b .add).overflow = true ↔ sint8 a + sint8 b < -128 ∨ sint8 a + sint8 b > 127) ∧
    ((compute a b .add).overflow = true ↔ carryInto a b 7 ≠ carryInto a b 8) ∧
    (compute a b .add).overflow =
      ((a ^^^ (compute a b .add).value) &&& (b ^^^ (compute a b .add).value)).getLsbD 7 ∧
    ((compute a b .add).overflow = false → sint8 (compute a b .add).value = sint8 a + sint8 b)

/-- Derived from section 1 of 41_arithmetic.md: ADD is commutative in all five outputs, 0 is neutral, and the value with
the carry is the exact sum. -/
def Obligations.AddLaws : Prop :=
  ∀ a b : Byte,
    compute a b .add = compute b a .add ∧
    (compute a 0 .add).value = a ∧ (compute a 0 .add).carry = false ∧ (compute a 0 .add).overflow = false ∧
    a.toNat + b.toNat = (compute a b .add).value.toNat + 256 * (compute a b .add).carry.toNat

/-- Derived from section 2 of 41_arithmetic.md: SUB is the adder on the complement with carry-in 1, its borrow the
inverse of that adder's carry out. -/
def Obligations.SubAsAdderCircuit : Prop :=
  ∀ a b : Byte,
    (compute a b .sub).value.toNat = (a.toNat + (255 - b.toNat) + 1) % 256 ∧
    (compute a b .sub).carry = !(a.toNat + (255 - b.toNat) + 1).testBit 8

/-- Derived from section 2 of 41_arithmetic.md: SUB never sets Overflow; the signed reading of the value is the signed
difference exactly when that difference fits, and there are operands for which it does not. -/
def Obligations.SubNeverReportsOverflow : Prop :=
  (∀ a b : Byte, (compute a b .sub).overflow = false ∧
    (sint8 (compute a b .sub).value = sint8 a - sint8 b ↔
      -128 ≤ sint8 a - sint8 b ∧ sint8 a - sint8 b ≤ 127)) ∧
  ∃ a b : Byte, sint8 a - sint8 b > 127 ∧ (compute a b .sub).overflow = false

/-- Derived from section 2 of 41_arithmetic.md: the laws of SUB. -/
def Obligations.SubLaws : Prop :=
  ∀ a b : Byte,
    (a.toNat : Int) - b.toNat = (compute a b .sub).value.toNat - 256 * ((compute a b .sub).carry.toNat : Int) ∧
    ((compute a b .sub).zero = true ↔ a = b) ∧
    ((compute a b .sub).carry = true ↔ a.toNat < b.toNat) ∧
    ¬((compute a b .sub).zero = true ∧ (compute a b .sub).carry = true) ∧
    (compute a 0 .sub).value = a ∧ (compute a 0 .sub).carry = false ∧
    (compute 0 b .sub).value.toNat = (256 - b.toNat) % 256 ∧
    (compute 0 b .sub).carry = decide (b ≠ 0) ∧
    ((compute a b .sub).value.toNat + (compute b a .sub).value.toNat) % 256 = 0 ∧
    (a ≠ b → (compute a b .sub).carry = !(compute b a .sub).carry)

/-- Derived from section 6 of 42_logic.md: the laws that tie the logic operations to the adder and the subtractor. -/
def Obligations.LogicAndAdderLaws : Prop :=
  ∀ a b : Byte,
    (compute a b .and).value.toNat + (compute a b .or).value.toNat = a.toNat + b.toNat ∧
    (compute a b .xor).value.toNat + (compute a b .and).value.toNat = (compute a b .or).value.toNat ∧
    (compute a b .add).value.toNat =
      ((compute a b .xor).value.toNat + 2 * (compute a b .and).value.toNat) % 256 ∧
    compute a b .not = compute a 255 .xor ∧
    compute a b .not = compute 255 a .sub

/-! ### The carry chain (43_carry_chain.md) -/

/-- R140: nine entries, `chain[0] = 0`, and each next entry is the carry out of the full addition at its position,
equivalently the majority of the three bits. -/
def Obligations.CarryChainRecurrence : Prop :=
  ∀ a b : Byte,
    (carryChain a b).length = 9 ∧ (carryChain a b).getD 0 true = false ∧
    ∀ i < 8,
      ((carryChain a b).getD (i + 1) false).toNat =
        ((a.getLsbD i).toNat + (b.getLsbD i).toNat + ((carryChain a b).getD i false).toNat) >>> 1 ∧
      (carryChain a b).getD (i + 1) false =
        ((a.getLsbD i && b.getLsbD i) || (a.getLsbD i && (carryChain a b).getD i false) ||
          (b.getLsbD i && (carryChain a b).getD i false))

/-- Derived from section 1 of 43_carry_chain.md: the ripple sum bits are the bits of ADD's value, so the bit-serial adder
and the ALU's adder are the same function. -/
def Obligations.RippleSumIsTheAddValue : Prop :=
  ∀ (a b : Byte), ∀ i < 8,
    sumBit (a.getLsbD i) (b.getLsbD i) ((carryChain a b).getD i false) = (compute a b .add).value.getLsbD i ∧
    (a.getLsbD i).toNat + (b.getLsbD i).toNat + ((carryChain a b).getD i false).toNat =
      ((compute a b .add).value.getLsbD i).toNat + 2 * ((carryChain a b).getD (i + 1) false).toNat

/-- R142: the chain has exactly nine entries, the first is 0, the last is ADD's carry, and the last two differ exactly
when ADD's overflow is true. -/
def Obligations.CarryChainEndsInTheFlags : Prop :=
  ∀ a b : Byte,
    (carryChain a b).length = 9 ∧
    (carryChain a b)[0]? = some false ∧
    (carryChain a b)[8]? = some (compute a b .add).carry ∧
    ((carryChain a b)[7]? ≠ (carryChain a b)[8]? ↔ (compute a b .add).overflow = true)

/-- Derived from section 2 of 43_carry_chain.md and section 3 of 44_step_sequencer.md (decision D16): the chain field is
present exactly when `op` is ADD, with the same nine entries at every step, and so says `chain_valid`. That `chain_valid`
has no value while a reserved code stands on `op` is the model's reading (log entry 10). -/
def Obligations.ChainFieldForAddOnly : Prop :=
  (∀ (a b : Byte) (op : AluOp) (k : Cursor),
    ((describeStep a b op k).carryChain = if op = .add then some (carryChain a b) else none)) ∧
  (∀ (s : State) (op : AluOp), s.host.op = op.code →
    chainValid s = some (decide (op = .add)) ∧
    (chainValid s = some true ↔ ∃ d, stepDataOut s = some d ∧ d.carryChain ≠ none)) ∧
  (∀ s : State, 6 ≤ s.host.op.toNat → chainValid s = none)

/-! ### The step sequencer (44_step_sequencer.md) -/

/-- R150: eleven steps for every operation: LOAD, LATCH, eight BIT steps with position `step - 2`, OUTPUT; RESET restarts
the sequence from any of them. -/
def Obligations.ElevenStepsOfEveryReplay : Prop :=
  Config.totalSteps = 11 ∧
  ∀ (a b : Byte) (op : AluOp) (k : Cursor), k.val < Config.totalSteps ∧
    ((describeStep a b op k).kind = .load ↔ k.val = 0) ∧
    ((describeStep a b op k).kind = .latch ↔ k.val = 1) ∧
    ((describeStep a b op k).kind = .bit ↔ 2 ≤ k.val ∧ k.val ≤ 9) ∧
    ((describeStep a b op k).kind = .output ↔ k.val = 10) ∧
    (∀ r, (describeStep a b op k).report = .bit r → k.val = r.p.val + 2) ∧
    ∀ s : State, s.block.cursor = k → ∃ t : State, exec (.reset false) s = .next t ∧ t.block.cursor.val = 0

/-- Derived from section 3 of 44_step_sequencer.md (highlights by decision D17, log entry 7): step 0 reports both operands, for NOT
too, step 1 the operation; neither highlights a position. -/
def Obligations.LoadAndLatchReports : Prop :=
  ∀ (a b : Byte) (op : AluOp),
    (describeStep a b op 0).report = .load a b ∧ (describeStep a b op 0).highlighted = 0 ∧
    (describeStep a b op 1).report = .latch op ∧ (describeStep a b op 1).highlighted = 0

/-- R160 to R164: what steps 2 to 9 report, for each operation: position, operand bits, result bit, and the carries for
ADD; the positions up to `p` are highlighted. -/
def Obligations.BitStepReports : Prop :=
  ∀ (a b : Byte) (p : Fin 8) (k : Cursor), k.val = p.val + 2 →
    (∀ op : AluOp, (describeStep a b op k).kind = .bit ∧
      ∀ i < 8, (describeStep a b op k).highlighted.getLsbD i = decide (i ≤ p.val)) ∧
    (describeStep a b .add k).report = .bit
      { p := p, aBit := a.getLsbD p.val, bBit := some (b.getLsbD p.val)
        carryIn := some ((carryChain a b).getD p.val false)
        resultBit := (a.getLsbD p.val ^^ b.getLsbD p.val) ^^ (carryChain a b).getD p.val false
        carryOut := some ((carryChain a b).getD (p.val + 1) false) } ∧
    (describeStep a b .sub k).report = .bit
      { p := p, aBit := a.getLsbD p.val, bBit := some (b.getLsbD p.val), carryIn := none
        resultBit := (BitVec.ofInt 8 ((a.toNat : Int) - b.toNat)).getLsbD p.val, carryOut := none } ∧
    (describeStep a b .and k).report = .bit
      { p := p, aBit := a.getLsbD p.val, bBit := some (b.getLsbD p.val), carryIn := none
        resultBit := a.getLsbD p.val && b.getLsbD p.val, carryOut := none } ∧
    (describeStep a b .or k).report = .bit
      { p := p, aBit := a.getLsbD p.val, bBit := some (b.getLsbD p.val), carryIn := none
        resultBit := a.getLsbD p.val || b.getLsbD p.val, carryOut := none } ∧
    (describeStep a b .xor k).report = .bit
      { p := p, aBit := a.getLsbD p.val, bBit := some (b.getLsbD p.val), carryIn := none
        resultBit := a.getLsbD p.val ^^ b.getLsbD p.val, carryOut := none } ∧
    (describeStep a b .not k).report = .bit
      { p := p, aBit := a.getLsbD p.val, bBit := none, carryIn := none
        resultBit := !a.getLsbD p.val, carryOut := none }

/-- Derived from section 3 of 44_step_sequencer.md: at every bit position of every operation the bit the replay reports
is the bit of the ALU's value, and the value step 10 reports is that value. -/
def Obligations.ReplayReportsTheAluValue : Prop :=
  ∀ (a b : Byte) (op : AluOp),
    (∀ p : Fin 8, ∃ (k : Cursor) (r : BitReport), k.val = p.val + 2 ∧
      (describeStep a b op k).report = .bit r ∧ r.p = p ∧
      r.resultBit = (compute a b op).value.getLsbD p.val) ∧
    ∃ signed, (describeStep a b op 10).report = .output (compute a b op).value signed

/-- Derived from section 3 of 44_step_sequencer.md (decisions D17, D19; log entries 7 and 1): step 10 reports a signed number exactly for a
SUB with a negative true difference; from -128 up it is the true difference and the signed reading of the value. Nothing
is claimed of the number below -128 (log entry 1). -/
def Obligations.OutputStepReport : Prop :=
  ∀ (a b : Byte) (op : AluOp), ∃ signed : Option Int,
    (describeStep a b op 10).report = .output (compute a b op).value signed ∧
    (∀ i < 8, (describeStep a b op 10).highlighted.getLsbD i = true) ∧
    (signed ≠ none ↔ op = .sub ∧ (compute a b .sub).carry = true) ∧
    (op = .sub → -128 ≤ (a.toNat : Int) - b.toNat → (a.toNat : Int) - b.toNat < 0 →
      signed = some ((a.toNat : Int) - b.toNat) ∧ signed = some (sint8 (compute a b .sub).value))

/-- R152: ADVANCE completes in every state with `cursor <- min(cursor + 1, 10)` and changes nothing else. -/
def Obligations.AdvanceMovesOneStepClamped : Prop :=
  ∀ s : State, encode .advance = .seq 0b01 ∧ ∃ t : State,
    exec .advance s = .next t ∧ t.block.cursor.val = min (s.block.cursor.val + 1) 10 ∧
    t.host = s.host ∧ aluOutputs t = aluOutputs s

/-- R153: RESET completes in every state with `cursor <- 0`, from any state, idempotently, and changes nothing else. -/
def Obligations.ResetReturnsToStepZero : Prop :=
  ∀ s : State, encode (.reset false) = .seq 0b10 ∧ ∃ t : State,
    exec (.reset false) s = .next t ∧ t.block.cursor.val = 0 ∧
    t.host = s.host ∧ aluOutputs t = aluOutputs s ∧ exec (.reset false) t = .next t

/-- Derived from section 2 of 44_step_sequencer.md (decision D13): ADVANCE and RESET requested together are a
RESET. That the word 11 is a RESET which keeps its ignored bit is the model's choice (log entry 6). -/
def Obligations.ResetWinsOverAdvance : Prop :=
  decode (.seq 0b11) = .instr (.reset true) ∧
  ∀ s : State, exec (.reset true) s = exec (.reset false) s ∧
    ∃ t : State, exec (.reset true) s = .next t ∧ t.block.cursor.val = 0 ∧ t.host = s.host

/-- Derived from section 2 of 44_step_sequencer.md (decisions D11, D12): IDLE completes and changes nothing, and a host
that issues nothing, an empty list of requests (log entry 3), leaves the machine as it is. -/
def Obligations.IdleHoldsTheCursor : Prop :=
  ∀ s : State, exec .idle s = .next s ∧ (s.host.pending = [] → Sys2Proof.Machine.step s = .next s)

/-- Derived from section 2 of 44_step_sequencer.md: IDLE, ADVANCE and RESET do the same to the cursor whatever stands on
`a`, `b` and `op`, a reserved code included, a change of the lines does not move the cursor, and the steps are of the same
kinds for every operation. That a `present` of a reserved code completes is the model's reading (log entry 10, DEDUCED):
60_exceptions.md lists presenting a reserved `op` among what is refused, and the model reads this of the evaluation. -/
def Obligations.CommandsIgnoreTheInputLines : Prop :=
  ∀ (s : State) (a b : Byte) (op : OpCode),
    (∀ (o₁ o₂ : AluOp) (k : Cursor), (describeStep a b o₁ k).kind = (describeStep a b o₂ k).kind) ∧
    (∀ i ∈ [Instr.idle, .advance, .reset false, .reset true], ∃ t : State,
      exec i s = .next t ∧ exec i (driveLines a b op s) = .next (driveLines a b op t)) ∧
    (∀ rest, s.host.pending = .present a b op :: rest → ∃ t : State,
      Sys2Proof.Machine.step s = .next t ∧ t.block = s.block ∧
      t.host = { a := a, b := b, op := op, pending := rest })

/-- R167: after RESET and then `k` ADVANCEs the cursor is `min(k, 10)`, whatever it was; the lines are as they were, and
the step data is that of the step reached. -/
def Obligations.ReplayIsRestartable : Prop :=
  ∀ (s : State) (k : Nat) (rest : List Request),
    s.host.pending = .issue (.seq 0b10) :: (List.replicate k (.issue (.seq 0b01)) ++ rest) →
    ∃ t : State, Sys2Proof.core.run (k + 1) s = .next t ∧
      t.block.cursor.val = min k 10 ∧ t.host = { s.host with pending := rest } ∧
      ∀ op : AluOp, s.host.op = op.code →
        stepDataOut t = some (describeStep s.host.a s.host.b op t.block.cursor)

/-- Derived from section 5 of 70_reset_and_hazards.md: a complete replay stays complete under every step but a RESET or a
hardware reset, and ADVANCE then changes nothing. -/
def Obligations.CompleteReplayIsAbsorbing : Prop :=
  ∀ s : State, replayComplete s = true →
    exec .advance s = .next s ∧
    ∀ t : State, Sys2Proof.Machine.step s = .next t →
      replayComplete t = true ∨ ∃ r rest, s.host.pending = r :: rest ∧ r.isReset = true

/-- Derived from section 4 of 10_state.md (decision D14): the port shows the step index, and never a pattern 11..15. -/
def Obligations.CursorPortShowsTheStep : Prop :=
  ∀ s : State, (cursorPort s).toNat = s.block.cursor.val ∧ (cursorPort s).toNat ≤ 10

/-! ### The machine (10_state.md, 20_memory.md, 60_exceptions.md, 70_reset_and_hazards.md) -/

/-- Derived from section 4 of 20_memory.md and D29, with the list of requests of log entry 3: a step takes the host's oldest
request; when it is a word that
decodes to `i`, the step is `exec i` on the state without that request. -/
def Obligations.StepRunsTheDecodedInstruction : Prop :=
  ∀ (s : State) (w : CommandWord) (i : Instr) (rest : List Request),
    s.host.pending = .issue w :: rest → decode w = .instr i → i.wellFormed = true →
    Sys2Proof.Machine.step s = exec i { s with host := { s.host with pending := rest } }

/-- Derived from section 4 of 10_state.md: the cursor is written by ADVANCE, RESET and hardware reset only; any other step,
whatever it serves, leaves it. -/
def Obligations.OnlyCommandsMoveTheCursor : Prop :=
  ∀ s t : State, Sys2Proof.Machine.step s = .next t →
    t.block.cursor = s.block.cursor ∨
    (∃ r rest, s.host.pending = r :: rest ∧ r.isAdvance = true ∧
      t.block.cursor.val = min (s.block.cursor.val + 1) 10) ∨
    (∃ r rest, s.host.pending = r :: rest ∧ r.isReset = true ∧ t.block.cursor.val = 0)

/-- Derived from section 4 of 20_memory.md and section 4 of 40_result_and_flags.md: reading the outputs and reading the
step data at an index in 0..10 complete while a legal code stands on `op`, and change nothing. -/
def Obligations.ReadsChangeNothing : Prop :=
  ∀ (s : State) (op : AluOp) (rest : List Request), s.host.op = op.code →
    (s.host.pending = .evaluate :: rest →
      Sys2Proof.Machine.step s = .next { s with host := { s.host with pending := rest } }) ∧
    (∀ k : Cursor, s.host.pending = .describe (k.val : Int) :: rest →
      Sys2Proof.Machine.step s = .next { s with host := { s.host with pending := rest } } ∧
      stepDataAt s (k.val : Int) = some (describeStep s.host.a s.host.b op k))

/-- Derived from sections 3 and 4 of 44_step_sequencer.md: changed lines show at once, in the ALU outputs and in the data of
the step the cursor stands at. -/
def Obligations.ChangedInputsShowAtOnce : Prop :=
  ∀ (s : State) (a b : Byte) (op : AluOp) (rest : List Request),
    s.host.pending = .present a b op.code :: rest →
    ∃ t : State, Sys2Proof.Machine.step s = .next t ∧ t.block = s.block ∧
      aluOutputs t = some (compute a b op) ∧
      stepDataOut t = some (describeStep a b op s.block.cursor)

/-- Derived from section 5 of 30_encoding.md and section 1 of 60_exceptions.md (decision D5): with a reserved code an
evaluation is refused, by word, by call and by read, and neither outputs nor step data exist (log entry 10). -/
def Obligations.ReservedOperationIsRefused : Prop :=
  (∀ (s : State) (w : BitVec 19) (rest : List Request), 0x60000 ≤ w.toNat →
    s.host.pending = .issue (.opw w) :: rest →
    Sys2Proof.Machine.step s = .refused (.invalidWord .reservedOperation)) ∧
  (∀ s : State, 6 ≤ s.host.op.toNat → aluOutputs s = none ∧ stepDataOut s = none ∧
    (∀ rest, s.host.pending = .evaluate :: rest →
      Sys2Proof.Machine.step s = .refused .reservedOperation) ∧
    (∀ (k : Cursor) (rest : List Request), s.host.pending = .describe (k.val : Int) :: rest →
      Sys2Proof.Machine.step s = .refused .reservedOperation)) ∧
  (∀ (s : State) (a b : Byte) (op : OpCode) (rest : List Request), 6 ≤ op.toNat →
    s.host.pending = .call (a.toNat : Int) (b.toNat : Int) op :: rest →
    Sys2Proof.Machine.step s = .refused .reservedOperation)

/-- Derived from section 2 of 10_state.md (decision D10): a call over integers is refused when an operand is outside
[0, 255], never masked or clamped, and is the operation on the same bytes when both are inside. That the refusal is named
operandOutOfRange also where the code is reserved too is the model's choice (log entry 9). -/
def Obligations.OperandOutOfRangeIsRefused : Prop :=
  ∀ (s : State) (rest : List Request),
    (∀ (x y : Int) (op : OpCode), s.host.pending = .call x y op :: rest →
      x < 0 ∨ 255 < x ∨ y < 0 ∨ 255 < y →
      Sys2Proof.Machine.step s = .refused .operandOutOfRange) ∧
    (∀ (a b : Byte) (op : AluOp), s.host.pending = .call (a.toNat : Int) (b.toNat : Int) op.code :: rest →
      Sys2Proof.Machine.step s = exec (op.instr a b) { s with host := { s.host with pending := rest } })

/-- Derived from section 4 of 44_step_sequencer.md (decision D21): step data at an index outside 0..10 is refused, not
clamped. That the refusal is named stepIndexOutOfRange also while a reserved code stands on `op` is the model's choice (log
entry 9). -/
def Obligations.StepIndexOutOfRangeIsRefused : Prop :=
  ∀ (s : State) (k : Int) (rest : List Request), s.host.pending = .describe k :: rest → k < 0 ∨ 10 < k →
    Sys2Proof.Machine.step s = .refused .stepIndexOutOfRange ∧ stepDataAt s k = none

/-- Derived from section 1 of 70_reset_and_hazards.md (decision D15, log entry 12): hardware reset does to the machine exactly what the
RESET command does. -/
def Obligations.HardwareResetIsTheResetCommand : Prop :=
  ∀ (s : State) (rest : List Request), s.host.pending = .hardwareReset :: rest →
    ∃ t : State, Sys2Proof.Machine.step s = .next t ∧ t.block.cursor.val = 0 ∧
      t.host = { s.host with pending := rest } ∧
      exec (.reset false) { s with host := { s.host with pending := rest } } = .next t

/-- Derived from section 5 of 10_state.md, on the cursor, the spec's only reset value, and on the model's choice of a legal
code on the lines (log entry 2): the cursor, its port and the step shown are those of step 0, and the
replay is not complete. -/
def Obligations.ResetShowsStepZero : Prop :=
  State.reset.block.cursor.val = 0 ∧ cursorPort State.reset = 0#4 ∧ replayComplete State.reset = false ∧
  (stepDataOut State.reset).map StepData.kind = some .load

/-- Derived from section 1 of 60_exceptions.md: while the host keeps to its contract (a legal code on `op`, requests
within the contract) every step completes, with neither a fault nor a refusal, and the contract still holds. -/
def Obligations.ContractIsKeptByEveryStep : Prop :=
  ∀ s : State, InContract s → ∃ t : State, Sys2Proof.Machine.step s = .next t ∧ InContract t

/-- Derived, the base case of `ContractIsKeptByEveryStep`: the state after reset meets the contract. It rests on the
model's choice of the input lines and of no request pending at reset (log entries 2 and 3). -/
def Obligations.ResetMeetsTheContract : Prop := InContract State.reset

/-- Derived from section 2 of 44_step_sequencer.md and section 4 of 20_memory.md: over any stimulus within the contract the
run completes, every request is taken in its order, and the cursor is where the cursor's own state machine puts it. -/
def Obligations.CursorFollowsTheCommandsAlone : Prop :=
  ∀ (s : State) (rs rest : List Request), InContract s → s.host.pending = rs ++ rest →
    ∃ t : State, Sys2Proof.core.run rs.length s = .next t ∧
      t.block.cursor.val = cursorAfter s.block.cursor.val rs ∧ t.host.pending = rest ∧ InContract t
end

