-- ==== Sys2Proof/Laws/Assembly.lean ====
section
/-! SUPPORT. What the tokenizer does with a word, and that a numeral is one word. -/

namespace Sys2Proof.Machine

/-- A character that neither separates words nor starts a comment (R68). -/
def isWordChar (c : Char) : Prop := c ≠ ';' ∧ c ≠ ' ' ∧ c ≠ '\t' ∧ c ≠ ','

/-- Word characters are added to the word being read. -/
theorem tokens_append (w rest cur : List Char) (h : ∀ c ∈ w, isWordChar c) :
    tokens cur (w ++ rest) = tokens (cur ++ w) rest := by
  induction w generalizing cur with
  | nil => simp
  | cons c w ih =>
    obtain ⟨h1, h2, h3, h4⟩ := h c (by simp)
    rw [List.cons_append, tokens, if_neg h1, if_neg (by simp [h2, h3]), if_neg h4,
      ih (cur ++ [c]) fun d hd => h d (by simp [hd])]
    simp

theorem tokens_space (cur rest : List Char) : tokens cur (' ' :: rest) = endWord cur ++ tokens [] rest := by
  rw [tokens, if_neg (by decide), if_pos (by decide)]

theorem tokens_comma (cur rest : List Char) :
    tokens cur (',' :: rest) = endWord cur ++ .comma :: tokens [] rest := by
  rw [tokens, if_neg (by decide), if_neg (by decide), if_pos (by decide)]

/-- The end of a line: nothing, or a comment. -/
theorem tokens_comment {comment : List Char} (h : comment = [] ∨ ∃ cs, comment = ';' :: cs) (cur : List Char) :
    tokens cur comment = endWord cur := by
  obtain rfl | ⟨cs, rfl⟩ := h
  · rfl
  · rw [tokens, if_pos rfl]

theorem endWord_of_ne_nil {cur : List Char} (h : cur ≠ []) : endWord cur = [.word cur] := by
  cases cur with
  | nil => exact absurd rfl h
  | cons c cs => rfl

/-- A word of a line: not empty, of word characters only. -/
def isWord (w : List Char) : Prop := w ≠ [] ∧ ∀ c ∈ w, isWordChar c

/-- The tokens of a line `w x, y`, with or without a comment (R68). -/
theorem tokens_binaryLine {w x y comment : List Char} (hw : isWord w) (hx : isWord x) (hy : isWord y)
    (h : comment = [] ∨ ∃ cs, comment = ';' :: cs) :
    tokens [] (w ++ ' ' :: (x ++ ',' :: ' ' :: (y ++ comment))) = [.word w, .word x, .comma, .word y] := by
  rw [tokens_append _ _ _ hw.2, tokens_space, tokens_append _ _ _ hx.2, tokens_comma, tokens_space,
    tokens_append _ _ _ hy.2, tokens_comment h]
  simp only [List.nil_append, endWord_of_ne_nil hw.1, endWord_of_ne_nil hx.1, endWord_of_ne_nil hy.1]
  rfl

/-- The tokens of a line `w x`, with or without a comment (R68). -/
theorem tokens_unaryLine {w x comment : List Char} (hw : isWord w) (hx : isWord x)
    (h : comment = [] ∨ ∃ cs, comment = ';' :: cs) :
    tokens [] (w ++ ' ' :: (x ++ comment)) = [.word w, .word x] := by
  rw [tokens_append _ _ _ hw.2, tokens_space, tokens_append _ _ _ hx.2, tokens_comment h]
  simp only [List.nil_append, endWord_of_ne_nil hw.1, endWord_of_ne_nil hx.1]
  rfl

/-- A digit is a word character. -/
theorem isWordChar_of_digitValue {c : Char} {d : Nat} (h : digitValue c = some d) : isWordChar c := by
  refine ⟨?_, ?_, ?_, ?_⟩ <;> rintro rfl <;> simp [digitValue] at h

theorem isWordChar_of_digitsValue {base acc m : Nat} {cs : List Char} (h : digitsValue base acc cs = some m) :
    ∀ c ∈ cs, isWordChar c := by
  induction cs generalizing acc with
  | nil => simp
  | cons c cs ih =>
    simp only [digitsValue] at h
    split at h
    case h_1 d hd =>
      split at h
      · exact List.forall_mem_cons.2 ⟨isWordChar_of_digitValue hd, ih h⟩
      · cases h
    case h_2 => cases h

/-- A numeral is one word of a line, and not the empty one. -/
theorem isWord_of_numeralValue {x : List Char} {m : Nat} (h : numeralValue x = some m) : isWord x := by
  unfold numeralValue at h
  split at h
  · have := isWordChar_of_digitsValue h
    refine ⟨by simp, List.forall_mem_cons.2 ⟨?_, List.forall_mem_cons.2 ⟨?_, this⟩⟩⟩ <;> unfold isWordChar <;> decide
  · have := isWordChar_of_digitsValue h
    refine ⟨by simp, List.forall_mem_cons.2 ⟨?_, List.forall_mem_cons.2 ⟨?_, this⟩⟩⟩ <;> unfold isWordChar <;> decide
  · exact ⟨by simp, isWordChar_of_digitsValue h⟩
  · cases h

end Sys2Proof.Machine
end

