-- ==== Sys2Proof/Laws/Decode.lean ====
section
/-! SUPPORT. Operation codes and the fields of an operation word, once, as numbers. -/

namespace Sys2Proof

@[simp] theorem AluOp.ofCode_code (op : AluOp) : AluOp.ofCode op.code = some op := by
  cases op <;> rfl

theorem AluOp.code_of_ofCode {c : OpCode} {op : AluOp} (h : AluOp.ofCode c = some op) : op.code = c := by
  revert c op; decide

theorem AluOp.ofCode_isSome_iff (c : OpCode) : (AluOp.ofCode c).isSome = decide (c.toNat < 6) := by
  revert c; decide

theorem AluOp.ofCode_eq_none_iff (c : OpCode) : AluOp.ofCode c = none ↔ 6 ≤ c.toNat := by
  revert c; decide

theorem opField_toNat (w : BitVec 19) : (opField w).toNat = w.toNat / 65536 := by
  have := w.isLt
  simp only [opField, BitVec.extractLsb'_toNat, Nat.shiftRight_eq_div_pow]
  omega

theorem aField_toNat (w : BitVec 19) : (aField w).toNat = w.toNat / 256 % 256 := by
  simp [aField, BitVec.extractLsb'_toNat, Nat.shiftRight_eq_div_pow]

theorem bField_toNat (w : BitVec 19) : (bField w).toNat = w.toNat % 256 := by
  simp [bField, BitVec.extractLsb'_toNat]

/-- `OPW = (op << 16) | (a << 8) | b` as a number (R62). -/
theorem encodeOpw_toNat (op : AluOp) (a b : Byte) :
    (encodeOpw op a b).toNat = op.code.toNat * 65536 + a.toNat * 256 + b.toNat := by
  have ha := a.isLt
  have hb := b.isLt
  simp only [encodeOpw, BitVec.toNat_append]
  rw [← Nat.shiftLeft_add_eq_or_of_lt (by omega), ← Nat.shiftLeft_add_eq_or_of_lt (by omega)]
  simp only [Nat.shiftLeft_eq]
  omega

theorem AluOp.code_lt_six (op : AluOp) : op.code.toNat < 6 := by
  cases op <;> decide

end Sys2Proof
end

