-- ==== Sys2Proof/Laws/State.lean ====
section
/-! SUPPORT. What each operation on the state leaves in each field (one lemma a field), and what the list of requests
gives. -/

namespace Sys2Proof.Machine

@[simp] theorem driveLines_block (a b : Byte) (op : OpCode) (s : State) : (driveLines a b op s).block = s.block := rfl
@[simp] theorem driveLines_a (a b : Byte) (op : OpCode) (s : State) : (driveLines a b op s).host.a = a := rfl
@[simp] theorem driveLines_b (a b : Byte) (op : OpCode) (s : State) : (driveLines a b op s).host.b = b := rfl
@[simp] theorem driveLines_op (a b : Byte) (op : OpCode) (s : State) : (driveLines a b op s).host.op = op := rfl
@[simp] theorem driveLines_pending (a b : Byte) (op : OpCode) (s : State) :
    (driveLines a b op s).host.pending = s.host.pending := rfl

@[simp] theorem setCursor_cursor (c : Cursor) (s : State) : (setCursor c s).block.cursor = c := rfl
@[simp] theorem setCursor_host (c : Cursor) (s : State) : (setCursor c s).host = s.host := rfl

@[simp] theorem pushRequest_block (r : Request) (s : State) : (pushRequest r s).block = s.block := rfl
@[simp] theorem pushRequest_a (r : Request) (s : State) : (pushRequest r s).host.a = s.host.a := rfl
@[simp] theorem pushRequest_b (r : Request) (s : State) : (pushRequest r s).host.b = s.host.b := rfl
@[simp] theorem pushRequest_op (r : Request) (s : State) : (pushRequest r s).host.op = s.host.op := rfl
@[simp] theorem pushRequest_pending (r : Request) (s : State) :
    (pushRequest r s).host.pending = r :: s.host.pending := rfl

theorem setCursor_setCursor (c d : Cursor) (s : State) : setCursor c (setCursor d s) = setCursor c s := rfl

theorem setCursor_driveLines (c : Cursor) (a b : Byte) (op : OpCode) (s : State) :
    setCursor c (driveLines a b op s) = driveLines a b op (setCursor c s) := rfl

theorem setCursor_self (s : State) : setCursor s.block.cursor s = s := rfl

theorem takeRequest_of_nil {s : State} (h : s.host.pending = []) : takeRequest s = none := by
  simp [takeRequest, h]

theorem takeRequest_of_cons {s : State} {r : Request} {rest : List Request} (h : s.host.pending = r :: rest) :
    takeRequest s = some (r, { s with host := { s.host with pending := rest } }) := by
  simp [takeRequest, h]

theorem takeRequest_pushRequest (r : Request) (s : State) : takeRequest (pushRequest r s) = some (r, s) := rfl

/-- ADVANCE's next cursor as a number: `min(cursor + 1, 10)` (R152). -/
theorem cursorAfterAdvance_val (c : Cursor) : (cursorAfterAdvance c).val = min (c.val + 1) 10 := by
  unfold cursorAfterAdvance
  split
  · simp; omega
  · omega

end Sys2Proof.Machine
end

