-- ==== Sys2Proof/Laws/Compute.lean ====
section
/-! SUPPORT. What `compute`, the operand readings, the flags and the carry chain answer, one lemma a definition. -/

namespace Sys2Proof.Machine

theorem unsigned_nonneg (x : Byte) : 0 ≤ unsigned x := by simp [unsigned]

theorem unsigned_lt (x : Byte) : unsigned x < 256 := by
  have := x.isLt
  unfold unsigned; omega

/-- The mask is the remainder modulo 256 (R9, R80). -/
theorem unsigned_mask8 (r : Int) : unsigned (mask8 r) = r % 256 := by
  simp only [unsigned, mask8, BitVec.toNat_ofInt]
  omega

theorem mask8_unsigned (x : Byte) : mask8 (unsigned x) = x := by
  simp [mask8, unsigned]

@[simp] theorem compute_value (a b : Byte) (op : AluOp) : (compute a b op).value = mask8 (rawResult op a b) := rfl

theorem compute_zero (a b : Byte) (op : AluOp) :
    (compute a b op).zero = decide ((compute a b op).value.toNat = 0) := by
  simp only [compute, zeroFlag, beq_eq_decide, ← BitVec.toNat_inj]
  rfl

/-- Bit 7 is the comparison with 128 (R82). -/
theorem bitAt_seven (v : Byte) : bitAt v 7 = decide (128 ≤ v.toNat) := by
  revert v; decide

theorem compute_negative (a b : Byte) (op : AluOp) :
    (compute a b op).negative = decide (128 ≤ (compute a b op).value.toNat) :=
  bitAt_seven _

@[simp] theorem compute_carry (a b : Byte) (op : AluOp) :
    (compute a b op).carry = carryFlag op (rawResult op a b) := rfl

@[simp] theorem compute_overflow (a b : Byte) (op : AluOp) :
    (compute a b op).overflow = overflowFlag op a b (mask8 (rawResult op a b)) := rfl

/-- `sint8` as a comparison (R10). -/
theorem sint8_eq (v : Byte) : sint8 v = if 128 ≤ v.toNat then (v.toNat : Int) - 256 else v.toNat := by
  have h : v.getLsbD 7 = decide (128 ≤ v.toNat) := bitAt_seven v
  simp only [sint8, h, unsigned, decide_eq_true_eq]

/-- The recurrence of the chain (R140). -/
@[simp] theorem carryInto_zero (a b : Byte) : carryInto a b 0 = false := rfl

theorem carryInto_succ (a b : Byte) (i : Nat) :
    carryInto a b (i + 1) = carryOut (bitAt a i) (bitAt b i) (carryInto a b i) := rfl

/-- The entries of the chain are the carries into positions 0 to 8. -/
theorem carryChain_getD (a b : Byte) {i : Nat} (h : i < 9) : (carryChain a b).getD i false = carryInto a b i := by
  simp [carryChain, Config.chainLength, List.getD, h]

theorem carryOut_eq (x y c : Bool) : carryOut x y c = ((x && y) || (x && c) || (y && c)) := by
  revert x y c; decide

theorem sumBit_eq (x y c : Bool) : sumBit x y c = ((x ^^ y) ^^ c) := by
  revert x y c; decide

/-- Steps 2 to 9 are the BIT steps of positions 0 to 7 (R150, R160). -/
theorem shapeAt_of_bit {p : Fin 8} {k : Cursor} (h : k.val = p.val + 2) : shapeAt k = .bit p := by
  have := p.isLt
  unfold shapeAt
  rw [if_neg (by omega), if_neg (by omega), dif_pos (by omega)]
  congr 1; apply Fin.ext; simp; omega

theorem aluOutputs_of_code {s : State} {op : AluOp} (h : s.host.op = op.code) :
    aluOutputs s = some (compute s.host.a s.host.b op) := by
  simp [aluOutputs, h]

/-- The chain is present for ADD and no other operation (R143, R166). -/
theorem chainField_isSome (op : AluOp) (a b : Byte) : (chainField op a b).isSome = decide (op = .add) := by
  cases op <;> rfl

/-- R143's equation, for each of the six operations. -/
theorem chainValid_of_code {s : State} {op : AluOp} (h : s.host.op = op.code) :
    chainValid s = some (decide (op = .add)) := by
  simp [chainValid, h, chainField_isSome]

theorem stepDataOut_of_code {s : State} {op : AluOp} (h : s.host.op = op.code) :
    stepDataOut s = some (describeStep s.host.a s.host.b op s.block.cursor) := by
  simp [stepDataOut, h]

/-- The ALU outputs do not see the cursor (R29, R33). -/
theorem aluOutputs_setCursor (c : Cursor) (s : State) : aluOutputs (setCursor c s) = aluOutputs s := rfl

theorem stepIndexOf_eq_some_iff (k : Int) (c : Cursor) : stepIndexOf k = some c ↔ k = (c.val : Int) := by
  unfold stepIndexOf
  split
  · split
    · simp only [Option.some.injEq, Fin.ext_iff]; omega
    · simp; omega
  · simp; omega

end Sys2Proof.Machine
end

