-- ==== Sys2Proof/Laws/PerInstr.lean ====
section
/-! SUPPORT. Statements for all instructions, one lemma per constructor: the encoder answers a word the opcode table
admits (30_encoding.md R65, R66, R70). -/

/-- Every operation word the encoder writes lies in `0x00000` to `0x5FFFF`. -/
theorem Sys2Proof.Laws.encodeOpw_wellFormed (op : Sys2Proof.AluOp) (a b : Sys2Proof.Byte) :
    (Sys2Proof.CommandWord.opw (Sys2Proof.encodeOpw op a b)).wellFormed = true := by
  have h := Sys2Proof.AluOp.code_lt_six op
  have ha := a.isLt
  have hb := b.isLt
  simp only [Sys2Proof.CommandWord.wellFormed, Sys2Proof.encodeOpw_toNat, decide_eq_true_eq]
  omega

/-- The word of the instruction is one the table admits. -/
def Sys2Proof.Laws.EncodesLegal.Statement (i : Sys2Proof.Instr) : Prop :=
  (Sys2Proof.encode i).wellFormed = true

theorem Sys2Proof.Laws.EncodesLegal.add (a b : Sys2Proof.Byte) :
    Sys2Proof.Laws.EncodesLegal.Statement (.add a b) := Sys2Proof.Laws.encodeOpw_wellFormed .add a b

theorem Sys2Proof.Laws.EncodesLegal.sub (a b : Sys2Proof.Byte) :
    Sys2Proof.Laws.EncodesLegal.Statement (.sub a b) := Sys2Proof.Laws.encodeOpw_wellFormed .sub a b

theorem Sys2Proof.Laws.EncodesLegal.and (a b : Sys2Proof.Byte) :
    Sys2Proof.Laws.EncodesLegal.Statement (.and a b) := Sys2Proof.Laws.encodeOpw_wellFormed .and a b

theorem Sys2Proof.Laws.EncodesLegal.or (a b : Sys2Proof.Byte) :
    Sys2Proof.Laws.EncodesLegal.Statement (.or a b) := Sys2Proof.Laws.encodeOpw_wellFormed .or a b

theorem Sys2Proof.Laws.EncodesLegal.xor (a b : Sys2Proof.Byte) :
    Sys2Proof.Laws.EncodesLegal.Statement (.xor a b) := Sys2Proof.Laws.encodeOpw_wellFormed .xor a b

theorem Sys2Proof.Laws.EncodesLegal.not (a b : Sys2Proof.Byte) :
    Sys2Proof.Laws.EncodesLegal.Statement (.not a b) := Sys2Proof.Laws.encodeOpw_wellFormed .not a b

theorem Sys2Proof.Laws.EncodesLegal.idle : Sys2Proof.Laws.EncodesLegal.Statement .idle := rfl

theorem Sys2Proof.Laws.EncodesLegal.advance : Sys2Proof.Laws.EncodesLegal.Statement .advance := rfl

theorem Sys2Proof.Laws.EncodesLegal.reset (advanceToo : Bool) :
    Sys2Proof.Laws.EncodesLegal.Statement (.reset advanceToo) := rfl
end

