-- ==== Sys2Proof/Laws/Step.lean ====
section
/-! SUPPORT. What a step does with each kind of request, said once. -/

namespace Sys2Proof.Machine

theorem step_of_nil {s : State} (h : s.host.pending = []) : step s = .next s := by
  simp [step, takeRequest_of_nil h]

theorem step_of_cons {s : State} {r : Request} {rest : List Request} (h : s.host.pending = r :: rest) :
    step s = serve r { s with host := { s.host with pending := rest } } := by
  simp [step, takeRequest_of_cons h]

/-- One step, then `k` more. -/
theorem run_succ_of_next {s t : State} (h : step s = .next t) (k : Nat) :
    Sys2Proof.core.run (k + 1) s = Sys2Proof.core.run k t := by
  have h' : Sys2Proof.core.step s = .next t := h
  simp only [Host.Core.run, h']

/-- An ALU instruction puts its operands and its operation's code on the lines, and does nothing else. -/
theorem exec_aluInstr (op : AluOp) (a b : Byte) (s : State) :
    exec (op.instr a b) s = .next (driveLines a b op.code s) := by
  cases op <;> rfl

theorem serve_issue_of_decode {w : CommandWord} {i : Instr} (h : decode w = .instr i) (s : State) :
    serve (.issue w) s = exec i s := by
  simp [serve, serveWord, h]

theorem serve_issue_of_invalid {w : CommandWord} {why : Invalid} (h : decode w = .invalid why) (s : State) :
    serve (.issue w) s = .refused (.invalidWord why) := by
  simp [serve, serveWord, h]

/-- An operation word decodes to an ALU instruction or not at all (R71). -/
theorem decode_opw_cases {w : BitVec 19} {i : Instr} (h : decode (.opw w) = .instr i) :
    ∃ op, AluOp.ofCode (opField w) = some op ∧ i = op.instr (aField w) (bField w) := by
  simp only [decode, decodeOpw] at h
  split at h
  case h_1 op ho => cases h; exact ⟨op, ho, rfl⟩
  case h_2 => cases h

/-- What any instruction leaves: it never stops, and it changes the cursor alone or the lines alone. -/
theorem exec_cases (i : Instr) (s : State) :
    (∃ op a b, i = AluOp.instr op a b ∧ exec i s = .next (driveLines a b op.code s)) ∨
    (i = .idle ∧ exec i s = .next s) ∨
    (i = .advance ∧ exec i s = .next (setCursor (cursorAfterAdvance s.block.cursor) s)) ∨
    (∃ x, i = .reset x ∧ exec i s = .next (setCursor 0 s)) := by
  cases i with
  | add a b => exact .inl ⟨.add, a, b, rfl, rfl⟩
  | sub a b => exact .inl ⟨.sub, a, b, rfl, rfl⟩
  | and a b => exact .inl ⟨.and, a, b, rfl, rfl⟩
  | or a b => exact .inl ⟨.or, a, b, rfl, rfl⟩
  | xor a b => exact .inl ⟨.xor, a, b, rfl, rfl⟩
  | not a b => exact .inl ⟨.not, a, b, rfl, rfl⟩
  | idle => exact .inr (.inl ⟨rfl, rfl⟩)
  | advance => exact .inr (.inr (.inl ⟨rfl, rfl⟩))
  | reset x => exact .inr (.inr (.inr ⟨x, rfl, rfl⟩))

/-- A code is legal exactly when it selects an operation (R61, R66). -/
theorem legalCode_iff (op : OpCode) : legalCode op = true ↔ ∃ o, AluOp.ofCode op = some o := by
  rw [← Option.isSome_iff_exists, AluOp.ofCode_isSome_iff]
  rfl

theorem legalCode_code (op : AluOp) : legalCode op.code = true := by
  cases op <;> rfl

/-- A well-formed word decodes (R71). -/
theorem decode_of_wellFormed {w : CommandWord} (h : w.wellFormed = true) : ∃ i, decode w = .instr i := by
  cases w with
  | opw w =>
    simp only [CommandWord.wellFormed, decide_eq_true_eq] at h
    have hl : legalCode (opField w) = true := by
      simp only [legalCode, decide_eq_true_eq, opField_toNat]; omega
    obtain ⟨o, ho⟩ := (legalCode_iff _).1 hl
    exact ⟨o.instr (aField w) (bField w), by simp [decode, decodeOpw, ho]⟩
  | seq c => exact ⟨decodeSeq c, rfl⟩
  | other n w => exact absurd h (by simp [CommandWord.wellFormed])

end Sys2Proof.Machine
end

