-- ==== Sys2Proof/Tests/Slice0.lean ====
section
/-! SUPPORT. The model's own tests. Expected results are the spec's: the worked examples and derived vectors of
95_test_vectors.md (their ids stand in the comments). The second part shows, for each statement with hypotheses, a
concrete case that meets them together, at the edges of each clause. -/

namespace Sys2Proof.Tests

open Sys2Proof.Machine

/-- A state with the cursor at `c`, `a`, `b`, `op` on the lines and the requests `rs` to come. -/
def st (c : Cursor) (a b : Byte) (op : OpCode) (rs : List Request) : State :=
  { block := { cursor := c }, host := { a := a, b := b, op := op, pending := rs } }

/-- The ALU outputs after an outcome that is a next state. -/
def outs : Host.Outcome State Fault Refusal → Option ComputationResult
  | .next t => aluOutputs t
  | .fault _ => none
  | .refused _ => none

/-- The cursor after an outcome that is a next state. -/
def cur : Host.Outcome State Fault Refusal → Option Cursor
  | .next t => some t.block.cursor
  | .fault _ => none
  | .refused _ => none

/-- The refusal of an outcome. -/
def why : Host.Outcome State Fault Refusal → Option Refusal
  | .next _ => none
  | .fault _ => none
  | .refused r => some r

/-! ### Well-formedness, decoding, encoding -/

-- DC9, DC10, DC11: the last legal word, the first and the last reserved one
theorem test_wf_last_legal : CommandWord.wellFormed (.opw 0x5FFFF) = true := by decide
theorem test_wf_first_reserved : CommandWord.wellFormed (.opw 0x60000) = false := by decide
theorem test_wf_last_reserved : CommandWord.wellFormed (.opw 0x7FFFF) = false := by decide
theorem test_wf_no_format : CommandWord.wellFormed (.other 24 0x80000) = false := by decide

-- 30_encoding.md section 8, bit by bit
theorem test_decode_add : decode (.opw 0b0000010101000001111) = .instr (.add 42 15) := by decide
theorem test_decode_sub : decode (.opw 0b0010000010100001010) = .instr (.sub 5 10) := by decide
theorem test_decode_and : decode (.opw 0b0100000111111110000) = .instr (.and 15 240) := by decide
theorem test_decode_or : decode (.opw 0b0110000111111110000) = .instr (.or 15 240) := by decide
theorem test_decode_xor : decode (.opw 0b1001111111110101010) = .instr (.xor 255 170) := by decide
theorem test_decode_not : decode (.opw 0b1011100101000000000) = .instr (.not 202 0) := by decide
-- DC8: field b of NOT is kept
theorem test_decode_not_b : decode (.opw 0x5CA63) = .instr (.not 202 99) := by decide
-- R70
theorem test_decode_idle : decode (.seq 0b00) = .instr .idle := by decide
theorem test_decode_advance : decode (.seq 0b01) = .instr .advance := by decide
theorem test_decode_reset : decode (.seq 0b10) = .instr (.reset false) := by decide
theorem test_decode_both : decode (.seq 0b11) = .instr (.reset true) := by decide
-- DC12: one op bit from XOR 42, 15
theorem test_decode_reserved : decode (.opw 0x62A0F) = .invalid .reservedOperation := by decide
theorem test_encode_sub : encode (.sub 5 10) = .opw 0x1050A := by decide
theorem test_table_xor : decodeTableWord 24 0x4FFAA = some (.xor 255 170) := by decide
theorem test_table_advance : decodeTableWord 8 1 = some .advance := by decide
theorem test_table_reserved : decodeTableWord 24 0x7FFFF = none := by decide

/-! ### The six operations -/

-- A10 and A15
theorem test_add_all_but_negative :
    outs (exec (.add 128 128) State.reset) = some ⟨0, true, false, true, true⟩ := by decide
theorem test_add_carry_no_overflow :
    outs (exec (.add 192 192) State.reset) = some ⟨128, false, true, true, false⟩ := by decide
-- S10 and S8
theorem test_sub_below_minus_128 :
    outs (exec (.sub 0 200) State.reset) = some ⟨56, false, false, true, false⟩ := by decide
theorem test_sub_overflow_not_flagged :
    outs (exec (.sub 127 255) State.reset) = some ⟨128, false, true, true, false⟩ := by decide
-- AN4, OR4, XR4, NT2, NT4
theorem test_and : outs (exec (.and 202 172) State.reset) = some ⟨136, false, true, false, false⟩ := by decide
theorem test_or : outs (exec (.or 202 172) State.reset) = some ⟨238, false, true, false, false⟩ := by decide
theorem test_xor : outs (exec (.xor 202 172) State.reset) = some ⟨102, false, false, false, false⟩ := by decide
theorem test_not_ignores_b :
    outs (exec (.not 202 99) State.reset) = some ⟨53, false, false, false, false⟩ := by decide
theorem test_not_zero : outs (exec (.not 255 0) State.reset) = some ⟨0, true, false, false, false⟩ := by decide
-- CU10: the cursor does not see the operation
theorem test_operation_keeps_cursor : cur (exec (.sub 9 3) (st 4 1 1 0 [])) = some 4 := by decide
-- the first instruction after reset, placed as an opcode-table word (E1)
theorem test_first_instruction : outs (step (State.reset.withFetchWord 24 0x02A0F)) =
    some ⟨57, false, false, false, false⟩ := by decide

/-! ### The sequencer -/

-- CU2, CU3, CU5, CU7, CU8, CU9
theorem test_advance_nine : cur (exec .advance (st 9 0 0 0 [])) = some 10 := by decide
theorem test_advance_clamps : cur (exec .advance (st 10 0 0 0 [])) = some 10 := by decide
theorem test_reset_from_end : cur (exec (.reset false) (st 10 0 0 0 [])) = some 0 := by decide
theorem test_reset_wins : cur (step (st 5 0 0 0 [.issue (.seq 0b11)])) = some 0 := by decide
theorem test_idle : cur (exec .idle (st 3 0 0 0 [])) = some 3 := by decide
theorem test_no_request : cur (step (st 3 0 0 0 [])) = some 3 := by decide

-- K12, K1
theorem test_chain_ripples :
    carryChain 100 28 = [false, false, false, true, true, true, true, true, false] := by decide
theorem test_chain_source :
    carryChain 42 15 = [false, false, true, true, true, false, false, false, false] := by decide
-- E6, step 2
theorem test_step_two : describeStep 1 1 .add 2 =
    { kind := .bit, highlighted := 0b00000001
      carryChain := some [false, true, false, false, false, false, false, false, false]
      report := .bit { p := 0, aBit := true, bBit := some true, carryIn := some false
                       resultBit := false, carryOut := some true } } := by decide
-- Q13: SUB reports a bit no combination of the operand bits alone would give
theorem test_step_sub : describeStep 5 10 .sub 9 =
    { kind := .bit, highlighted := 0b11111111, carryChain := none
      report := .bit { p := 7, aBit := false, bBit := some false, carryIn := none
                       resultBit := true, carryOut := none } } := by decide
-- Q14
theorem test_step_not : (describeStep 202 0 .not 2).report =
    .bit { p := 0, aBit := false, bBit := none, carryIn := none, resultBit := true, carryOut := none } := by decide
-- Q2, Q3
theorem test_step_load : (describeStep 202 0 .not 0).report = .load 202 0 := by decide
theorem test_step_latch : describeStep 5 10 .sub 1 =
    { kind := .latch, highlighted := 0, carryChain := none, report := .latch .sub } := by decide
-- Q6, Q21, Q9
theorem test_output_signed : (describeStep 5 10 .sub 10).report = .output 251 (some (-5)) := by decide
theorem test_output_edge : (describeStep 0 128 .sub 10).report = .output 128 (some (-128)) := by decide
theorem test_output_unsigned : (describeStep 255 0 .sub 10).report = .output 255 none := by decide
-- P6, line 3: the step data follows the inputs of the moment
theorem test_inputs_of_the_moment :
    (stepDataOut (st 2 5 10 AluOp.sub.code [])).map StepData.report =
      some (.bit { p := 0, aBit := true, bBit := some false, carryIn := none, resultBit := true
                   carryOut := none }) := by decide

/-! ### Assembly text (R68) -/

theorem test_assemble_binary_numeral : assemble
    ['N', 'O', 'T', ' ', '0', 'b', '1', '1', '0', '0', '1', '0', '1', '0', ' ', ';', 'x'] = .ok (.not 202 0) := by decide
theorem test_assemble_out_of_range :
    assemble ['A', 'D', 'D', ' ', '2', '5', '6', ',', ' ', '1'] = .error .numeralOutOfRange := by decide
theorem test_assemble_not_out_of_range :
    assemble ['N', 'O', 'T', ' ', '0', 'x', '1', '0', '0', ';', 'c'] = .error .numeralOutOfRange := by decide
theorem test_assemble_no_neg : assemble ['N', 'E', 'G', ' ', '1'] = .error .unknownMnemonic := by decide
theorem test_disassemble_not :
    disassemble (.not 202 99) = ['N', 'O', 'T', ' ', '2', '0', '2', ',', ' ', '9', '9'] := by decide

/-! ### Witnesses: the hypotheses of the statements can be met -/

theorem witness_DecodeOfEncode : (Instr.add 42 15).wellFormed = true := by decide
theorem witness_EncodeOfDecode :
    decode (.opw 0x5FFFF) = .instr (.not 255 255) ∧ decode (.seq 3) = .instr (.reset true) := by decide
theorem witness_OpcodeMapDisjointAndComplete :
    AluOp.add.selects 0x0FFFF = true ∧ AluOp.sub.selects 0x10000 = true := by decide
theorem witness_DecoderFollowsOpcodeMap_row : AluOp.not.selects 0x5FFFF = true := by decide
theorem witness_DecoderFollowsOpcodeMap_none : ∀ o : AluOp, o.selects 0x60000 = false := by
  intro o; cases o <;> decide
theorem witness_AssemblerRefusesLargeNumerals_left :
    numeralValue ['2', '5', '6'] = some 256 ∧ numeralValue ['0'] = some 0 := by decide
theorem witness_AssemblerRefusesLargeNumerals_right :
    numeralValue ['1'] = some 1 ∧ numeralValue ['0', 'x', '1', '0', '0'] = some 256 := by decide
theorem witness_AssemblerRefusesLargeNumerals_comment : ∃ cs, [';', ' ', 'c'] = ';' :: cs := ⟨_, rfl⟩
theorem witness_AssemblerRefusesLargeNumerals_mnemonic : ['X', 'O', 'R'] ∈
    [['A', 'D', 'D'], ['S', 'U', 'B'], ['A', 'N', 'D'], ['O', 'R'], ['X', 'O', 'R'], ['N', 'O', 'T']] := by decide
theorem witness_LogicOperationsClearCarryAndOverflow :
    AluOp.not ∈ [AluOp.and, .or, .xor, .not] := by decide
theorem witness_EvaluationsArePure : ∃ t u v : State,
    exec (AluOp.add.instr 42 15) (st 3 0 0 0 [.issue (.seq 1)]) = .next t ∧
    Sys2Proof.core.run 1 t = .next u ∧ u.block.cursor = 4 ∧ exec (AluOp.add.instr 42 15) u = .next v :=
  ⟨_, _, _, rfl, rfl, by decide, rfl⟩
theorem witness_CarryMarksMaskedResult : AluOp.sub ∈ [AluOp.add, .sub] := by decide
theorem witness_UnreachableFlagStrings :
    (compute 128 128 .add).overflow = true ∧ (compute 128 128 .add).carry = true := by decide
theorem witness_AddOverflowEquivalentForms :
    (compute 127 0 .add).overflow = false ∧ (compute 127 1 .add).overflow = true := by decide
theorem witness_SubLaws : (0 : Byte) ≠ 255 := by decide
theorem witness_ChainFieldForAddOnly :
    (st 0 1 1 0 []).host.op = AluOp.add.code ∧ (st 0 1 1 1 []).host.op = AluOp.sub.code ∧
    6 ≤ (st 0 1 1 6 []).host.op.toNat ∧ 6 ≤ (st 0 1 1 7 []).host.op.toNat := by decide
theorem witness_ElevenStepsOfEveryReplay_bit : (describeStep 1 1 .add 9).report =
    .bit (bitReport 1 1 .add 7) ∧ (st 10 0 0 0 []).block.cursor = 10 := by decide
theorem witness_BitStepReports :
    (2 : Cursor).val = (0 : Fin 8).val + 2 ∧ (9 : Cursor).val = (7 : Fin 8).val + 2 := by decide
theorem witness_OutputStepReport :
    (-128 : Int) ≤ ((0 : Byte).toNat : Int) - (128 : Byte).toNat ∧
    ((4 : Byte).toNat : Int) - (5 : Byte).toNat < 0 := by decide
theorem witness_IdleHoldsTheCursor : State.reset.host.pending = [] := by decide
theorem witness_CommandsIgnoreTheInputLines :
    (st 4 1 1 0 [.present 9 3 7]).host.pending = .present 9 3 7 :: [] ∧
    Instr.reset true ∈ [Instr.idle, .advance, .reset false, .reset true] := by decide
theorem witness_ReplayIsRestartable :
    (st 7 1 1 0 [.issue (.seq 0b10), .issue (.seq 0b01), .evaluate]).host.pending =
      .issue (.seq 0b10) :: (List.replicate 1 (.issue (.seq 0b01)) ++ [.evaluate]) ∧
    (st 7 1 1 0 []).host.op = AluOp.add.code := by decide
theorem witness_CompleteReplayIsAbsorbing : replayComplete (st 10 0 0 0 []) = true ∧
    cur (step (st 10 0 0 0 [.issue (.seq 2)])) = some 0 ∧
    cur (step (st 10 0 0 0 [.issue (.seq 1)])) = some 10 := by decide
theorem witness_StepRunsTheDecodedInstruction :
    (st 0 0 0 0 [.issue (.opw 0x5FFFF)]).host.pending = .issue (.opw 0x5FFFF) :: [] ∧
    decode (.opw 0x5FFFF) = .instr (.not 255 255) ∧ (Instr.not 255 255).wellFormed = true := by decide
theorem witness_OnlyCommandsMoveTheCursor : cur (step (st 3 0 0 0 [])) = some 3 ∧
    cur (step (st 9 0 0 0 [.issue (.seq 1)])) = some 10 ∧
    cur (step (st 9 0 0 0 [.hardwareReset])) = some 0 := by decide
theorem witness_ReadsChangeNothing :
    (st 4 1 1 5 [.evaluate]).host.op = AluOp.not.code ∧
    (st 4 1 1 5 [.evaluate]).host.pending = .evaluate :: [] ∧
    (st 4 1 1 5 [.describe 10]).host.pending = .describe ((10 : Cursor).val : Int) :: [] ∧
    (st 4 1 1 5 [.describe 0]).host.pending = .describe ((0 : Cursor).val : Int) :: [] := by decide
theorem witness_ChangedInputsShowAtOnce :
    (st 2 1 1 0 [.present 5 10 1]).host.pending = .present 5 10 AluOp.sub.code :: [] := by decide
theorem witness_ReservedOperationIsRefused :
    (0x60000 ≤ (0x60000 : BitVec 19).toNat ∧ 0x60000 ≤ (0x7FFFF : BitVec 19).toNat) ∧
    why (step (st 0 0 0 0 [.issue (.opw 0x60000)])) = some (.invalidWord .reservedOperation) ∧
    6 ≤ (st 0 0 0 6 []).host.op.toNat ∧ 6 ≤ (st 0 0 0 7 []).host.op.toNat ∧
    why (step (st 0 0 0 7 [.evaluate])) = some .reservedOperation ∧
    why (step (st 0 0 0 6 [.describe 0])) = some .reservedOperation ∧
    why (step (st 0 0 0 0 [.call 1 1 6])) = some .reservedOperation := by decide
theorem witness_OperandOutOfRangeIsRefused :
    why (step (st 0 0 0 0 [.call 256 0 0])) = some .operandOutOfRange ∧
    why (step (st 0 0 0 0 [.call 0 (-1) 0])) = some .operandOutOfRange ∧
    outs (step (st 0 0 0 0 [.call 255 0 0])) = some ⟨255, false, true, false, false⟩ := by decide
theorem witness_OperandOutOfRangeIsRefused_inRange :
    (st 0 0 0 0 [.call 255 0 0]).host.pending =
      .call ((255 : Byte).toNat : Int) ((0 : Byte).toNat : Int) AluOp.add.code :: [] := by decide
theorem witness_StepIndexOutOfRangeIsRefused :
    why (step (st 0 0 0 0 [.describe 11])) = some .stepIndexOutOfRange ∧
    why (step (st 0 0 0 0 [.describe (-1)])) = some .stepIndexOutOfRange := by decide
theorem witness_HardwareResetIsTheResetCommand :
    (st 7 0 0 0 [.hardwareReset, .evaluate]).host.pending = .hardwareReset :: [.evaluate] := by decide
theorem witness_ContractIsKeptByEveryStep :
    InContract (st 7 1 1 5 [.issue (.seq 1), .present 1 2 5, .describe 10, .call 0 255 0, .hardwareReset]) := by
  unfold InContract; decide
theorem witness_CursorFollowsTheCommandsAlone :
    InContract (st 9 1 1 0 [.issue (.seq 1), .issue (.seq 1), .evaluate]) ∧
    (st 9 1 1 0 [.issue (.seq 1), .issue (.seq 1), .evaluate]).host.pending =
      [.issue (.seq 1), .issue (.seq 1)] ++ [.evaluate] := by
  unfold InContract; decide

end Sys2Proof.Tests
end

section
/-! SUPPORT. Result and flags (40_result_and_flags.md): the integer results of R80's table with their ranges, what the
mask does to each, the flags as comparisons, and the lines an ALU instruction leaves. -/

namespace Sys2Proof.Proofs

open Sys2Proof.Machine

/-! ### What an ALU instruction leaves -/

/-- The outputs of driven lines are `compute` of what was driven (R84). -/
@[simp] theorem aluOutputs_driveLines (a b : Byte) (op : AluOp) (s : State) :
    aluOutputs (driveLines a b op.code s) = some (compute a b op) :=
  aluOutputs_of_code (driveLines_op a b op.code s)

/-- The next state of an ALU instruction, whatever state it started from. -/
theorem eq_driveLines_of_exec {op : AluOp} {a b : Byte} {s t : State} (h : exec (op.instr a b) s = .next t) :
    t = driveLines a b op.code s := by
  rw [exec_aluInstr] at h
  exact (Host.Outcome.next.inj h).symm

/-- Lines driven again keep nothing of what they carried. -/
theorem driveLines_driveLines (a b a' b' : Byte) (op op' : OpCode) (s : State) :
    driveLines a' b' op' (driveLines a b op s) = driveLines a' b' op' s := rfl

/-- Settles O15: the instruction drives the lines, and the outputs follow them. -/
theorem everyOperationCompletes : Obligations.EveryOperationCompletes := by
  intro op a b s
  exact ⟨driveLines a b op.code s, exec_aluInstr op a b s, aluOutputs_driveLines a b op s⟩

/-- Settles O17: each evaluation drives all three lines anew, so neither the first one nor the run between leaves a trace
in the outputs of the second. -/
theorem evaluationsArePure : Obligations.EvaluationsArePure := by
  intro op a b s t u v n hst _ huv
  obtain rfl := eq_driveLines_of_exec hst
  obtain rfl := eq_driveLines_of_exec huv
  have sameOutputs : aluOutputs (driveLines a b op.code u) = aluOutputs (driveLines a b op.code s) := by
    simp only [aluOutputs_driveLines]
  refine ⟨sameOutputs, driveLines_block .., driveLines_block .., driveLines_a .., driveLines_b .., driveLines_op .., ?_⟩
  intro op' a' b'
  rw [exec_aluInstr, exec_aluInstr, driveLines_driveLines]

/-! ### The integer results of R80's table -/

theorem rawResult_add (a b : Byte) : rawResult .add a b = a.toNat + b.toNat := rfl

theorem rawResult_sub (a b : Byte) : rawResult .sub a b = a.toNat - b.toNat := rfl

theorem rawResult_not (a b : Byte) : rawResult .not a b = -a.toNat - 1 := rfl

theorem rawResult_and (a b : Byte) : rawResult .and a b = ((a.toNat &&& b.toNat : Nat) : Int) :=
  congrArg Int.ofNat (BitVec.toNat_and a b)

theorem rawResult_or (a b : Byte) : rawResult .or a b = ((a.toNat ||| b.toNat : Nat) : Int) :=
  congrArg Int.ofNat (BitVec.toNat_or a b)

theorem rawResult_xor (a b : Byte) : rawResult .xor a b = ((a.toNat ^^^ b.toNat : Nat) : Int) :=
  congrArg Int.ofNat (BitVec.toNat_xor a b)

theorem rawResult_add_range (a b : Byte) : 0 ≤ rawResult .add a b ∧ rawResult .add a b ≤ 510 := by
  have ha := a.isLt
  have hb := b.isLt
  rw [rawResult_add]
  omega

theorem rawResult_sub_range (a b : Byte) : -255 ≤ rawResult .sub a b ∧ rawResult .sub a b ≤ 255 := by
  have ha := a.isLt
  have hb := b.isLt
  rw [rawResult_sub]
  omega

theorem rawResult_bitwise_range {op : AluOp} (h : op ∈ [AluOp.and, .or, .xor]) (a b : Byte) :
    0 ≤ rawResult op a b ∧ rawResult op a b < 256 := by
  simp only [List.mem_cons, List.not_mem_nil, or_false] at h
  obtain rfl | rfl | rfl := h <;> exact ⟨unsigned_nonneg _, unsigned_lt _⟩

/-! ### The mask's effect on each -/

theorem value_toNat (a b : Byte) (op : AluOp) :
    ((compute a b op).value.toNat : Int) = rawResult op a b % 256 :=
  unsigned_mask8 _

theorem value_add (a b : Byte) : ((compute a b .add).value.toNat : Int) =
    if rawResult .add a b > 255 then rawResult .add a b - 256 else rawResult .add a b := by
  have hrange := rawResult_add_range a b
  rw [value_toNat]
  split <;> omega

theorem value_sub (a b : Byte) : ((compute a b .sub).value.toNat : Int) =
    if rawResult .sub a b < 0 then rawResult .sub a b + 256 else rawResult .sub a b := by
  have hrange := rawResult_sub_range a b
  rw [value_toNat]
  split <;> omega

theorem value_bitwise {op : AluOp} (h : op ∈ [AluOp.and, .or, .xor]) (a b : Byte) :
    ((compute a b op).value.toNat : Int) = rawResult op a b := by
  obtain ⟨hnonneg, hlt⟩ := rawResult_bitwise_range h a b
  rw [value_toNat, Int.emod_eq_of_lt hnonneg hlt]

theorem value_not (a b : Byte) : ((compute a b .not).value.toNat : Int) = 255 - a.toNat := by
  have ha := a.isLt
  rw [value_toNat, rawResult_not]
  omega

/-- Settles O18, row by row of R80's table. -/
theorem valueIsLowEightBits : Obligations.ValueIsLowEightBits := by
  intro a b
  obtain ⟨addNonneg, addLe⟩ := rawResult_add_range a b
  obtain ⟨subGe, subLe⟩ := rawResult_sub_range a b
  have bitwise : ∀ op ∈ [AluOp.and, .or, .xor], rawResult op a b ≤ 255 ∧
      ((compute a b op).value.toNat : Int) = rawResult op a b := fun op h =>
    ⟨Int.le_of_lt_add_one (rawResult_bitwise_range h a b).2, value_bitwise h a b⟩
  exact ⟨value_toNat a b, rawResult_add a b, addNonneg, addLe, value_add a b, rawResult_sub a b, subGe, subLe,
    value_sub a b, rawResult_and a b, rawResult_or a b, rawResult_xor a b, bitwise, rawResult_not a b, value_not a b⟩

/-! ### Zero and Negative -/

/-- Bit 7 of a byte, read as a number. -/
theorem shiftRight_seven_and_one (v : Byte) : v.toNat >>> 7 &&& 1 = 1 ↔ 128 ≤ v.toNat := by
  have hv := v.isLt
  rw [Nat.shiftRight_eq_div_pow, Nat.and_one_is_mod]
  omega

/-- The two's-complement reading is negative from 128 up (R10). -/
theorem sint8_neg_iff (v : Byte) : sint8 v < 0 ↔ 128 ≤ v.toNat := by
  have hv := v.isLt
  rw [sint8_eq]
  split <;> omega

/-- Settles O19: both flags are comparisons of the masked value, and the three readings of its sign agree. -/
theorem zeroAndNegativeFromValue : Obligations.ZeroAndNegativeFromValue := by
  intro a b op
  rw [compute_zero, compute_negative, shiftRight_seven_and_one, sint8_neg_iff]
  simp only [decide_eq_true_eq, and_self]

/-! ### Carry and overflow -/

theorem carry_add (a b : Byte) : (compute a b .add).carry = decide (a.toNat + b.toNat > 255) := by
  rw [compute_carry, rawResult_add]
  exact decide_eq_decide.2 (by omega)

theorem carry_sub (a b : Byte) : (compute a b .sub).carry = decide (a.toNat < b.toNat) := by
  rw [compute_carry, rawResult_sub]
  exact decide_eq_decide.2 (by omega)

/-- The sign rule: operands of one sign, a value of the other. -/
theorem overflow_add (a b : Byte) : (compute a b .add).overflow =
    decide (a.getLsbD 7 = b.getLsbD 7 ∧ (compute a b .add).value.getLsbD 7 ≠ a.getLsbD 7) := by
  rw [compute_overflow, compute_value, overflowFlag, Bool.decide_and, decide_not, beq_eq_decide, bne, beq_eq_decide]
  rfl

theorem overflow_sub (a b : Byte) : (compute a b .sub).overflow = false := rfl

theorem carry_overflow_logic {op : AluOp} (h : op ∈ [AluOp.and, .or, .xor, .not]) (a b : Byte) :
    (compute a b op).carry = false ∧ (compute a b op).overflow = false := by
  simp only [List.mem_cons, List.not_mem_nil, or_false] at h
  obtain rfl | rfl | rfl | rfl := h <;> exact ⟨rfl, rfl⟩

/-- Settles O20, operation by operation. -/
theorem carryAndOverflowGenerator : Obligations.CarryAndOverflowGenerator := by
  intro a b
  exact ⟨carry_add a b, overflow_add a b, carry_sub a b, overflow_sub a b, fun _ h => carry_overflow_logic h a b⟩

end Sys2Proof.Proofs
end

section
/-! SUPPORT. Arithmetic (41_arithmetic.md): the sum and the difference as numbers, when SUB's zero is set, and the word of
an ALU instruction. -/

namespace Sys2Proof.Proofs

open Sys2Proof.Machine

/-- The word of an ALU instruction is its operation's code, then its operands (R62). -/
theorem encode_aluInstr (op : AluOp) (a b : Byte) : encode (op.instr a b) = .opw (op.code ++ a ++ b) := by
  cases op <;> rfl

/-- Negative as the top bit itself (R82); `compute_negative` gives the comparison. -/
theorem negative_eq_getLsbD (a b : Byte) (op : AluOp) :
    (compute a b op).negative = (compute a b op).value.getLsbD 7 := rfl

/-! ### ADD -/

theorem value_add_toNat (a b : Byte) : (compute a b .add).value.toNat = (a.toNat + b.toNat) % 256 := by
  have h := value_toNat a b .add
  rw [rawResult_add] at h
  exact_mod_cast h

/-- The sign rule with Boolean connectives; `overflow_add` gives it as a proposition. -/
theorem overflow_add_eq_and (a b : Byte) : (compute a b .add).overflow =
    (a.getLsbD 7 == b.getLsbD 7 && (compute a b .add).value.getLsbD 7 != a.getLsbD 7) := rfl

/-- Settles O8: ADD drives the lines, and each output there is `compute`'s. -/
theorem addGivesSumAndFlags : Obligations.AddGivesSumAndFlags := by
  intro a b s
  exact ⟨driveLines a b AluOp.add.code s, compute a b .add, exec_aluInstr .add a b s, aluOutputs_driveLines a b .add s,
    encode_aluInstr .add a b, value_add_toNat a b, carry_add a b, overflow_add_eq_and a b, compute_zero a b .add,
    negative_eq_getLsbD a b .add⟩

/-! ### SUB -/

/-- The true difference lies in -255..255, where 0 is the only multiple of 256. -/
theorem zero_sub_iff (a b : Byte) : (compute a b .sub).zero = true ↔ a = b := by
  have hrange := rawResult_sub_range a b
  have hvalue := value_toNat a b .sub
  rw [compute_zero, decide_eq_true_eq, ← BitVec.toNat_inj]
  rw [rawResult_sub] at hrange hvalue
  omega

/-- Settles O9: SUB drives the lines, and each output there is `compute`'s. -/
theorem subGivesDifferenceAndBorrow : Obligations.SubGivesDifferenceAndBorrow := by
  intro a b s
  exact ⟨driveLines a b AluOp.sub.code s, compute a b .sub, exec_aluInstr .sub a b s, aluOutputs_driveLines a b .sub s,
    encode_aluInstr .sub a b, value_toNat a b .sub, carry_sub a b, overflow_sub a b, compute_zero a b .sub,
    zero_sub_iff a b, negative_eq_getLsbD a b .sub⟩

end Sys2Proof.Proofs
end

section
/-! SUPPORT. Logic operations (42_logic.md): each value as a word of the operands' bits, when each operation's zero and
negative are set, and the flag strings a value allows. -/

namespace Sys2Proof.Proofs

open Sys2Proof.Machine

/-- Zero as the masked value itself (R81); `compute_zero` gives the comparison of numbers. -/
theorem zero_iff_value_eq (a b : Byte) (op : AluOp) :
    (compute a b op).zero = true ↔ (compute a b op).value = 0#8 :=
  beq_iff_eq

/-! ### AND -/

/-- The conjunction of two bytes is a byte, so the mask changes nothing (R120). -/
theorem value_and (a b : Byte) : (compute a b .and).value = a &&& b :=
  mask8_unsigned _

theorem value_and_getLsbD (a b : Byte) (i : Nat) :
    (compute a b .and).value.getLsbD i = (a.getLsbD i && b.getLsbD i) := by
  rw [value_and, BitVec.getLsbD_and]

/-- Settles O10: AND drives the lines, and each output there is `compute`'s; its sign is bit 7 of the conjunction. -/
theorem andGivesConjunction : Obligations.AndGivesConjunction := by
  intro a b s
  obtain ⟨hcarry, hoverflow⟩ := carry_overflow_logic (op := .and) (by decide) a b
  exact ⟨driveLines a b AluOp.and.code s, compute a b .and, exec_aluInstr .and a b s, aluOutputs_driveLines a b .and s,
    encode_aluInstr .and a b, fun i _ => value_and_getLsbD a b i, hcarry, hoverflow, compute_zero a b .and,
    value_and_getLsbD a b 7⟩

/-! ### OR -/

/-- The disjunction of two bytes is a byte, so the mask changes nothing (R121). -/
theorem value_or (a b : Byte) : (compute a b .or).value = a ||| b :=
  mask8_unsigned _

theorem value_or_getLsbD (a b : Byte) (i : Nat) :
    (compute a b .or).value.getLsbD i = (a.getLsbD i || b.getLsbD i) := by
  rw [value_or, BitVec.getLsbD_or]

theorem zero_or_iff (a b : Byte) : (compute a b .or).zero = true ↔ a.toNat = 0 ∧ b.toNat = 0 := by
  rw [zero_iff_value_eq, value_or, BitVec.or_eq_zero_iff, ← BitVec.toNat_inj, ← BitVec.toNat_inj]
  rfl

/-- Settles O11: OR drives the lines, and each output there is `compute`'s; a disjunction is 0 only of two zeros. -/
theorem orGivesDisjunction : Obligations.OrGivesDisjunction := by
  intro a b s
  obtain ⟨hcarry, hoverflow⟩ := carry_overflow_logic (op := .or) (by decide) a b
  exact ⟨driveLines a b AluOp.or.code s, compute a b .or, exec_aluInstr .or a b s, aluOutputs_driveLines a b .or s,
    encode_aluInstr .or a b, fun i _ => value_or_getLsbD a b i, hcarry, hoverflow, compute_zero a b .or,
    zero_or_iff a b, value_or_getLsbD a b 7⟩

/-! ### XOR -/

/-- The exclusive disjunction of two bytes is a byte, so the mask changes nothing (R122). -/
theorem value_xor (a b : Byte) : (compute a b .xor).value = a ^^^ b :=
  mask8_unsigned _

theorem value_xor_getLsbD (a b : Byte) (i : Nat) :
    (compute a b .xor).value.getLsbD i = (a.getLsbD i != b.getLsbD i) := by
  rw [value_xor, BitVec.getLsbD_xor, Bool.bne_eq_xor]

theorem zero_xor_iff (a b : Byte) : (compute a b .xor).zero = true ↔ a = b := by
  rw [zero_iff_value_eq, value_xor]
  exact BitVec.xor_eq_zero_iff

/-- Settles O12: XOR drives the lines, and each output there is `compute`'s; an exclusive disjunction is 0 only of two
equal operands. -/
theorem xorGivesExclusiveDisjunction : Obligations.XorGivesExclusiveDisjunction := by
  intro a b s
  obtain ⟨hcarry, hoverflow⟩ := carry_overflow_logic (op := .xor) (by decide) a b
  exact ⟨driveLines a b AluOp.xor.code s, compute a b .xor, exec_aluInstr .xor a b s, aluOutputs_driveLines a b .xor s,
    encode_aluInstr .xor a b, fun i _ => value_xor_getLsbD a b i, hcarry, hoverflow, compute_zero a b .xor,
    zero_xor_iff a b, value_xor_getLsbD a b 7⟩

/-! ### NOT -/

/-- No output of NOT reads `b` (R64, R123). -/
theorem compute_not_ignores_b (a b b' : Byte) : compute a b' .not = compute a b .not := rfl

theorem value_not_toNat (a b : Byte) : (compute a b .not).value.toNat = 255 - a.toNat := by
  have ha := a.isLt
  have hvalue := value_not a b
  omega

/-- The masked `-a - 1` is the complement of the word, since both are the number `255 - a` (R9, R123). -/
theorem value_not_eq_complement (a b : Byte) : (compute a b .not).value = ~~~a := by
  apply BitVec.eq_of_toNat_eq
  rw [value_not_toNat, BitVec.toNat_not]

theorem value_not_getLsbD (a b : Byte) {i : Nat} (hi : i < 8) :
    (compute a b .not).value.getLsbD i = !a.getLsbD i := by
  rw [value_not_eq_complement, BitVec.getLsbD_not, decide_eq_true hi, Bool.true_and]

theorem zero_not_iff (a b : Byte) : (compute a b .not).zero = true ↔ a.toNat = 255 := by
  have ha := a.isLt
  rw [compute_zero, decide_eq_true_eq, value_not_toNat]
  omega

theorem negative_not (a b : Byte) : (compute a b .not).negative = decide (a.toNat ≤ 127) := by
  rw [compute_negative, value_not_toNat]
  exact decide_eq_decide.2 (by omega)

/-- Settles O13: NOT drives the lines with either `b`, and `compute` answers one record for both. -/
theorem notGivesComplementOfA : Obligations.NotGivesComplementOfA := by
  intro a b b' s
  have sameOutputs : aluOutputs (driveLines a b' AluOp.not.code s) = some (compute a b .not) := by
    rw [aluOutputs_driveLines, compute_not_ignores_b a b b']
  obtain ⟨hcarry, hoverflow⟩ := carry_overflow_logic (op := .not) (by decide) a b
  exact ⟨driveLines a b AluOp.not.code s, driveLines a b' AluOp.not.code s, compute a b .not,
    exec_aluInstr .not a b s, aluOutputs_driveLines a b .not s, exec_aluInstr .not a b' s, sameOutputs,
    encode_aluInstr .not a b, value_not_toNat a b, fun _ hi => value_not_getLsbD a b hi, hcarry, hoverflow,
    compute_zero a b .not, zero_not_iff a b, negative_not a b⟩

/-! ### The flag strings -/

/-- Zero and Negative are never set together: 0 has no top bit (R81, R82). -/
theorem zero_negative_mem (a b : Byte) (op : AluOp) :
    ((compute a b op).zero, (compute a b op).negative) ∈ [(false, false), (true, false), (false, true)] := by
  rw [compute_zero, compute_negative]
  generalize (compute a b op).value.toNat = n
  by_cases hzero : n = 0
  · simp [hzero]
  · by_cases htop : 128 ≤ n <;> simp [hzero, htop]

/-- Settles O14: `carry_overflow_logic` clears Carry and Overflow, and the value decides between the three strings. -/
theorem logicOperationsClearCarryAndOverflow : Obligations.LogicOperationsClearCarryAndOverflow := by
  intro op a b s hop
  obtain ⟨hcarry, hoverflow⟩ := carry_overflow_logic hop a b
  exact ⟨driveLines a b op.code s, compute a b op, exec_aluInstr op a b s, aluOutputs_driveLines a b op s,
    hcarry, hoverflow, compute_zero a b op, compute_negative a b op, zero_negative_mem a b op⟩

end Sys2Proof.Proofs
end

section
/-! SUPPORT. The carry chain (43_carry_chain.md): its length and entries, the ripple as the library's carry of an adder,
and its last two entries as ADD's Carry and Overflow. -/

namespace Sys2Proof.Proofs

open Sys2Proof.Machine

/-! ### Entries and recurrence -/

@[simp] theorem carryChain_length (a b : Byte) : (carryChain a b).length = 9 := by
  simp [carryChain, Config.chainLength]

theorem carryChain_getElem? (a b : Byte) {i : Nat} (h : i < 9) : (carryChain a b)[i]? = some (carryInto a b i) := by
  rw [List.getElem?_eq_getElem (by simpa using h), ← List.getD_eq_getElem _ false, carryChain_getD a b h]

/-- The carry out as the number `t_i >> 1` (R140); `carryOut_eq` gives it as the majority. -/
theorem carryOut_toNat (x y c : Bool) : (carryOut x y c).toNat = (x.toNat + y.toNat + c.toNat) >>> 1 := by
  revert x y c; decide

/-- Settles O29: an entry of the chain is the carry into its position, and each carry is the full addition's below it,
once as a number and once as the majority. -/
theorem carryChainRecurrence : Obligations.CarryChainRecurrence := by
  intro a b
  refine ⟨carryChain_length a b, ?_, fun i hi => ?_⟩
  · rw [List.getD_eq_getElem?_getD, carryChain_getElem? a b (by decide), Option.getD_some, carryInto_zero]
  · rw [carryChain_getD a b (show i + 1 < 9 by omega), carryChain_getD a b (show i < 9 by omega), carryInto_succ]
    exact ⟨carryOut_toNat .., carryOut_eq ..⟩

/-! ### The ripple and the adder -/

/-- The model's ripple is the library's carry of an addition without carry-in: both start at 0 and continue by the
majority. -/
theorem carryInto_eq_carry (a b : Byte) (i : Nat) : carryInto a b i = BitVec.carry i a b false := by
  induction i with
  | zero => rw [carryInto_zero, BitVec.carry_zero]
  | succ i ih => rw [carryInto_succ, carryOut_eq, BitVec.carry_succ, ← ih]; rfl

/-- The carry into position `i` says that the `i` bits below it overflow. -/
theorem carryInto_eq_decide (a b : Byte) (i : Nat) :
    carryInto a b i = decide (2 ^ i ≤ a.toNat % 2 ^ i + b.toNat % 2 ^ i) :=
  carryInto_eq_carry a b i

theorem carryInto_eight (a b : Byte) : carryInto a b 8 = (compute a b .add).carry := by
  rw [carryInto_eq_decide, Nat.mod_eq_of_lt a.isLt, Nat.mod_eq_of_lt b.isLt, carry_add]
  rfl

/-- ADD's masked sum is the addition of bytes (R100). -/
theorem value_add_eq_add (a b : Byte) : (compute a b .add).value = a + b := by
  apply BitVec.eq_of_toNat_eq
  rw [value_add_toNat, BitVec.toNat_add]

/-- A bit of the sum is the exclusive disjunction of the operands' bits and the carry into its position (R141). -/
theorem value_add_getLsbD (a b : Byte) {i : Nat} (hi : i < 8) :
    (compute a b .add).value.getLsbD i = (a.getLsbD i ^^ (b.getLsbD i ^^ carryInto a b i)) := by
  rw [value_add_eq_add, BitVec.getLsbD_add hi, carryInto_eq_carry]

/-- In a full addition the carry in and the carry out differ exactly when the two bits agree and the sum bit does not
agree with them. -/
theorem ne_carryOut_eq_sign_rule (x y c : Bool) : (c != carryOut x y c) = (x == y && (x ^^ (y ^^ c)) != x) := by
  revert x y c; decide

/-- The sign rule of R83 is the full addition at bit 7. -/
theorem overflow_add_eq_carries_ne (a b : Byte) :
    (compute a b .add).overflow = (carryInto a b 7 != carryInto a b 8) := by
  rw [overflow_add_eq_and, value_add_getLsbD a b (by decide), carryInto_succ a b 7, ne_carryOut_eq_sign_rule]
  rfl

/-- Settles O31: the last two entries are the carries into and out of bit 7. -/
theorem carryChainEndsInTheFlags : Obligations.CarryChainEndsInTheFlags := by
  intro a b
  refine ⟨carryChain_length a b, carryChain_getElem? a b (by decide), ?_, ?_⟩
  · rw [carryChain_getElem? a b (by decide), carryInto_eight]
  · rw [carryChain_getElem? a b (by decide), carryChain_getElem? a b (by decide), overflow_add_eq_carries_ne,
      bne_iff_ne, ne_eq, Option.some.injEq]

end Sys2Proof.Proofs
end

section
/-! SUPPORT. The step sequencer (44_step_sequencer.md): what ADVANCE and RESET leave, as instructions and as requests, the
cursor after a run of ADVANCEs, and R150's table read off the step data. -/

namespace Sys2Proof.Proofs

open Sys2Proof.Machine

/-! ### The commands -/

theorem exec_advance (s : State) :
    exec .advance s = .next (setCursor (cursorAfterAdvance s.block.cursor) s) := rfl

theorem exec_reset (advanceToo : Bool) (s : State) : exec (.reset advanceToo) s = .next (setCursor 0 s) := rfl

theorem encode_advance : encode .advance = .seq 0b01 := rfl

theorem encode_reset : encode (.reset false) = .seq 0b10 := rfl

/-- Settles O38: ADVANCE writes the cursor alone, and the ALU outputs do not see the cursor. -/
theorem advanceMovesOneStepClamped : Obligations.AdvanceMovesOneStepClamped := by
  intro s
  exact ⟨encode_advance, setCursor (cursorAfterAdvance s.block.cursor) s, exec_advance s, cursorAfterAdvance_val _,
    setCursor_host .., aluOutputs_setCursor ..⟩

/-- Settles O39: RESET writes the cursor alone, and a second RESET writes the same 0 again. -/
theorem resetReturnsToStepZero : Obligations.ResetReturnsToStepZero := by
  intro s
  have idempotent : exec (.reset false) (setCursor 0 s) = .next (setCursor 0 s) := by
    rw [exec_reset, setCursor_setCursor]
  exact ⟨encode_reset, setCursor 0 s, exec_reset false s, congrArg Fin.val (setCursor_cursor 0 s), setCursor_host ..,
    aluOutputs_setCursor .., idempotent⟩

/-! ### Runs of commands -/

/-- A pending ADVANCE is taken from the list and moves the cursor. -/
theorem step_of_pending_advance {s : State} {rest : List Request}
    (h : s.host.pending = .issue (.seq 0b01) :: rest) :
    step s = .next (setCursor (cursorAfterAdvance s.block.cursor)
      { s with host := { s.host with pending := rest } }) := by
  rw [step_of_cons h, serve_issue_of_decode (i := .advance) rfl, exec_advance]

/-- A pending RESET is taken from the list and sends the cursor to 0. -/
theorem step_of_pending_reset {s : State} {rest : List Request} (h : s.host.pending = .issue (.seq 0b10) :: rest) :
    step s = .next (setCursor 0 { s with host := { s.host with pending := rest } }) := by
  rw [step_of_cons h, serve_issue_of_decode (i := .reset false) rfl, exec_reset]

/-- `k` ADVANCEs move the cursor from any step by `k`, clamped once at the end (R152). -/
theorem run_of_pending_advances (k : Nat) (s : State) (rest : List Request)
    (h : s.host.pending = List.replicate k (.issue (.seq 0b01)) ++ rest) :
    ∃ t : State, Sys2Proof.core.run k s = .next t ∧
      t.block.cursor.val = min (s.block.cursor.val + k) 10 ∧ t.host = { s.host with pending := rest } := by
  induction k generalizing s with
  | zero =>
    have hcursor := s.block.cursor.isLt
    rw [List.replicate_zero, List.nil_append] at h
    exact ⟨s, rfl, by omega, by rw [← h]⟩
  | succ k ih =>
    rw [List.replicate_succ, List.cons_append] at h
    obtain ⟨t, hrun, hcursor, hhost⟩ := ih (setCursor (cursorAfterAdvance s.block.cursor)
      { s with host := { s.host with pending := List.replicate k (.issue (.seq 0b01)) ++ rest } }) rfl
    rw [setCursor_cursor, cursorAfterAdvance_val] at hcursor
    exact ⟨t, (run_succ_of_next (step_of_pending_advance h) k).trans hrun, by omega, hhost⟩

/-- Settles O43: RESET forgets where the cursor was, the ADVANCEs count from 0, and the lines still carry the operation
whose step is shown. -/
theorem replayIsRestartable : Obligations.ReplayIsRestartable := by
  intro s k rest h
  obtain ⟨t, hrun, hcursor, hhost⟩ := run_of_pending_advances k (setCursor 0
    { s with host := { s.host with pending := List.replicate k (.issue (.seq 0b01)) ++ rest } }) rest rfl
  rw [setCursor_cursor, Fin.val_zero, Nat.zero_add] at hcursor
  rw [setCursor_host] at hhost
  refine ⟨t, (run_succ_of_next (step_of_pending_reset h) k).trans hrun, hcursor, hhost, fun op hop => ?_⟩
  have hcode : t.host.op = op.code := by rw [hhost, hop]
  rw [stepDataOut_of_code hcode, hhost]

/-! ### R150's table -/

/-- The rows of R150's table, which cover the eleven step indices. -/
theorem shapeAt_cases (k : Cursor) :
    (k.val = 0 ∧ shapeAt k = .load) ∨ (k.val = 1 ∧ shapeAt k = .latch) ∨
    (∃ p : Fin 8, k.val = p.val + 2 ∧ shapeAt k = .bit p) ∨ (k.val = 10 ∧ shapeAt k = .output) := by
  revert k; decide

theorem describeStep_kind (a b : Byte) (op : AluOp) (k : Cursor) :
    (describeStep a b op k).kind = kindOf (shapeAt k) := rfl

theorem describeStep_highlighted (a b : Byte) (op : AluOp) (k : Cursor) :
    (describeStep a b op k).highlighted = highlightedAt (shapeAt k) := rfl

theorem describeStep_report (a b : Byte) (op : AluOp) (k : Cursor) :
    (describeStep a b op k).report = reportAt a b op (shapeAt k) := rfl

/-- The kinds of R150's table: each kind's steps, exactly. -/
theorem describeStep_kind_iff (a b : Byte) (op : AluOp) (k : Cursor) :
    ((describeStep a b op k).kind = .load ↔ k.val = 0) ∧
    ((describeStep a b op k).kind = .latch ↔ k.val = 1) ∧
    ((describeStep a b op k).kind = .bit ↔ 2 ≤ k.val ∧ k.val ≤ 9) ∧
    ((describeStep a b op k).kind = .output ↔ k.val = 10) := by
  rw [describeStep_kind]
  obtain ⟨hk, hshape⟩ | ⟨hk, hshape⟩ | ⟨p, hk, hshape⟩ | ⟨hk, hshape⟩ := shapeAt_cases k
  · simp [hshape, hk, kindOf]
  · simp [hshape, hk, kindOf]
  · have hp := p.isLt
    simp only [hshape, kindOf, reduceCtorEq, false_iff, true_iff]
    omega
  · simp [hshape, hk, kindOf]

/-- Only a BIT step gives a bit report, and the report names the step's own position. -/
theorem step_of_report_bit {a b : Byte} {op : AluOp} {k : Cursor} {r : BitReport}
    (h : (describeStep a b op k).report = .bit r) : k.val = r.p.val + 2 := by
  rw [describeStep_report] at h
  obtain ⟨-, hshape⟩ | ⟨-, hshape⟩ | ⟨p, hk, hshape⟩ | ⟨-, hshape⟩ := shapeAt_cases k
  · rw [hshape] at h; cases h
  · rw [hshape] at h; cases h
  · rw [hshape] at h; cases h; exact hk
  · rw [hshape] at h; cases h

/-- Settles O33: the table's rows give the kinds and the positions, and RESET reads neither. -/
theorem elevenStepsOfEveryReplay : Obligations.ElevenStepsOfEveryReplay := by
  refine ⟨rfl, fun a b op k => ?_⟩
  obtain ⟨hload, hlatch, hbit, houtput⟩ := describeStep_kind_iff a b op k
  exact ⟨k.isLt, hload, hlatch, hbit, houtput, fun _ => step_of_report_bit,
    fun s _ => ⟨setCursor 0 s, exec_reset false s, congrArg Fin.val (setCursor_cursor 0 s)⟩⟩

/-! ### The BIT steps -/

/-- The mask `2^(p+1) - 1` has exactly the bits up to `p` (R160). -/
theorem highlightedAt_bit_getLsbD (p : Fin 8) {i : Nat} (hi : i < 8) :
    (highlightedAt (.bit p)).getLsbD i = decide (i ≤ p.val) := by
  rw [highlightedAt, BitVec.getLsbD_ofNat, Nat.testBit_two_pow_sub_one, decide_eq_true hi, Bool.true_and]
  exact decide_eq_decide.2 Nat.lt_succ_iff

theorem describeStep_report_of_bit {p : Fin 8} {k : Cursor} (h : k.val = p.val + 2) (a b : Byte) (op : AluOp) :
    (describeStep a b op k).report = .bit (bitReport a b op p) := by
  rw [describeStep_report, shapeAt_of_bit h]
  rfl

/-- ADD's report reads both carries off the chain (R161). -/
theorem bitReport_add (a b : Byte) (p : Fin 8) : bitReport a b .add p =
    { p := p, aBit := a.getLsbD p.val, bBit := some (b.getLsbD p.val)
      carryIn := some ((carryChain a b).getD p.val false)
      resultBit := (a.getLsbD p.val ^^ b.getLsbD p.val) ^^ (carryChain a b).getD p.val false
      carryOut := some ((carryChain a b).getD (p.val + 1) false) } := by
  have hp := p.isLt
  rw [carryChain_getD a b (show p.val < 9 by omega), carryChain_getD a b (show p.val + 1 < 9 by omega), bitReport,
    resultBitAt, sumBit_eq]
  rfl

/-- Settles O35: the position fixes the step's shape; ADD's report rests on the chain's entries, the other five are read
off `bitReport` operation by operation. -/
theorem bitStepReports : Obligations.BitStepReports := by
  intro a b p k h
  have hkind (op : AluOp) : (describeStep a b op k).kind = .bit := by
    rw [describeStep_kind, shapeAt_of_bit h]
    rfl
  have hhighlighted (op : AluOp) (i : Nat) (hi : i < 8) :
      (describeStep a b op k).highlighted.getLsbD i = decide (i ≤ p.val) := by
    rw [describeStep_highlighted, shapeAt_of_bit h, highlightedAt_bit_getLsbD p hi]
  have hreport := describeStep_report_of_bit h a b
  exact ⟨fun op => ⟨hkind op, hhighlighted op⟩, (hreport .add).trans (congrArg StepReport.bit (bitReport_add a b p)),
    hreport .sub, hreport .and, hreport .or, hreport .xor, hreport .not⟩

end Sys2Proof.Proofs
end

section
/-! SUPPORT. Encoding (30_encoding.md sections 3 to 6): the fields of an encoded word, the row of the opcode map a word
selects, and the decoder as the encoder's inverse. -/

namespace Sys2Proof.Proofs

open Sys2Proof.Machine

/-! ### The fields of an encoded word -/

@[simp] theorem opField_encodeOpw (op : AluOp) (a b : Byte) : opField (encodeOpw op a b) = op.code := by
  have ha := a.isLt
  have hb := b.isLt
  apply BitVec.eq_of_toNat_eq
  rw [opField_toNat, encodeOpw_toNat]
  omega

@[simp] theorem aField_encodeOpw (op : AluOp) (a b : Byte) : aField (encodeOpw op a b) = a := by
  have ha := a.isLt
  have hb := b.isLt
  apply BitVec.eq_of_toNat_eq
  rw [aField_toNat, encodeOpw_toNat]
  omega

@[simp] theorem bField_encodeOpw (op : AluOp) (a b : Byte) : bField (encodeOpw op a b) = b := by
  have hb := b.isLt
  apply BitVec.eq_of_toNat_eq
  rw [bField_toNat, encodeOpw_toNat]
  omega

/-- A word is put together again from its fields (R62). -/
theorem encodeOpw_fields {w : BitVec 19} {op : AluOp} (h : AluOp.ofCode (opField w) = some op) :
    encodeOpw op (aField w) (bField w) = w := by
  apply BitVec.eq_of_toNat_eq
  rw [encodeOpw_toNat, AluOp.code_of_ofCode h, opField_toNat, aField_toNat, bField_toNat]
  omega

/-! ### Decoder and encoder -/

theorem decode_opw_of_ofCode {w : BitVec 19} {op : AluOp} (h : AluOp.ofCode (opField w) = some op) :
    decode (.opw w) = .instr (op.instr (aField w) (bField w)) := by
  simp only [decode, decodeOpw, h]

theorem decode_opw_of_reserved {w : BitVec 19} (h : AluOp.ofCode (opField w) = none) :
    decode (.opw w) = .invalid .reservedOperation := by
  simp only [decode, decodeOpw, h]

theorem decode_encode_aluInstr (op : AluOp) (a b : Byte) :
    decode (encode (op.instr a b)) = .instr (op.instr a b) := by
  have hword : encode (op.instr a b) = .opw (encodeOpw op a b) := encode_aluInstr op a b
  have hcode : AluOp.ofCode (opField (encodeOpw op a b)) = some op := by
    rw [opField_encodeOpw, AluOp.ofCode_code]
  rw [hword, decode_opw_of_ofCode hcode, aField_encodeOpw, bField_encodeOpw]

/-- Settles O1: an operation word gives back its three fields, and each sequencer command its pattern. -/
theorem decodeOfEncode : Obligations.DecodeOfEncode := by
  intro i _
  cases i with
  | add a b => exact decode_encode_aluInstr .add a b
  | sub a b => exact decode_encode_aluInstr .sub a b
  | and a b => exact decode_encode_aluInstr .and a b
  | or a b => exact decode_encode_aluInstr .or a b
  | xor a b => exact decode_encode_aluInstr .xor a b
  | not a b => exact decode_encode_aluInstr .not a b
  | idle => rfl
  | advance => rfl
  | reset advanceToo => cases advanceToo <;> rfl

/-- Each of the four patterns of `seq_cmd` is the word of its own command (R70). -/
theorem encode_decodeSeq (c : BitVec 2) : encode (decodeSeq c) = .seq c := by
  revert c; decide

theorem encode_of_decode {w : CommandWord} {i : Instr} (h : decode w = .instr i) : encode i = w := by
  cases w with
  | opw w =>
    obtain ⟨op, hop, rfl⟩ := decode_opw_cases h
    exact (encode_aluInstr op _ _).trans (congrArg CommandWord.opw (encodeOpw_fields hop))
  | seq c => cases h; exact encode_decodeSeq c
  | other nbits w => cases h

theorem encode_wellFormed (i : Instr) : (encode i).wellFormed = true := by
  cases i with
  | add a b => exact Laws.EncodesLegal.add a b
  | sub a b => exact Laws.EncodesLegal.sub a b
  | and a b => exact Laws.EncodesLegal.and a b
  | or a b => exact Laws.EncodesLegal.or a b
  | xor a b => exact Laws.EncodesLegal.xor a b
  | not a b => exact Laws.EncodesLegal.not a b
  | idle => exact Laws.EncodesLegal.idle
  | advance => exact Laws.EncodesLegal.advance
  | reset advanceToo => exact Laws.EncodesLegal.reset advanceToo

/-- Settles O2: a word that decodes is the word of what it decodes to, and so one the table admits. -/
theorem encodeOfDecode : Obligations.EncodeOfDecode := by
  intro w
  refine ⟨fun i => encode_of_decode, decode_of_wellFormed, fun ⟨i, hi⟩ => ?_⟩
  rw [← encode_of_decode hi]
  exact encode_wellFormed i

/-- Settles O5: each word is small enough to be decoded by evaluation. -/
theorem handEncodedWordsDecode : Obligations.HandEncodedWordsDecode := by
  unfold Obligations.HandEncodedWordsDecode
  decide

/-! ### The opcode map -/

/-- The mask of the opcode map keeps field `op` and clears both operand fields (R65). -/
theorem and_mask_eq (w : BitVec 19) : w &&& 0x70000#19 = opField w ++ 0#16 := by
  have hmask : 0x70000#19 = BitVec.allOnes 3 ++ 0#16 := by decide
  have hfields : opField w ++ w.extractLsb' 0 16 = w := BitVec.extractLsb'_append_extractLsb'
  calc w &&& 0x70000#19 = (opField w ++ w.extractLsb' 0 16) &&& (BitVec.allOnes 3 ++ 0#16) := by
        rw [hfields, hmask]
    _ = opField w ++ 0#16 := by rw [BitVec.and_append, BitVec.and_allOnes, BitVec.and_zero]

/-- A row is selected by its operation's code in field `op` and by nothing else. -/
theorem selects_iff (op : AluOp) (w : BitVec 19) :
    op.selects w = true ↔ AluOp.ofCode (opField w) = some op := by
  have hrow : op.row = (op.code ++ 0#16, 0x70000#19) := by cases op <;> rfl
  have hcode : opField w = op.code ↔ AluOp.ofCode (opField w) = some op :=
    ⟨fun h => by rw [h, AluOp.ofCode_code], fun h => (AluOp.code_of_ofCode h).symm⟩
  rw [AluOp.selects, hrow, and_mask_eq, beq_iff_eq, BitVec.append_left_inj, hcode]

/-- Settles O3: a row is selected exactly by its code, and the six codes are those below 6. -/
theorem opcodeMapDisjointAndComplete : Obligations.OpcodeMapDisjointAndComplete := by
  intro w
  have hcover : (∃ o, AluOp.ofCode (opField w) = some o) ↔ w.toNat < 0x60000 := by
    rw [← Option.isSome_iff_exists, AluOp.ofCode_isSome_iff, decide_eq_true_eq, opField_toNat]
    omega
  simp only [selects_iff]
  exact ⟨fun o₁ o₂ h₁ h₂ => Option.some.inj (h₁.symm.trans h₂), hcover⟩

/-- Settles O4: the row a word selects is the operation the decoder reads, and a word of no row carries a reserved
code. -/
theorem decoderFollowsOpcodeMap : Obligations.DecoderFollowsOpcodeMap := by
  intro w
  refine ⟨fun o ho => ⟨aField w, bField w, aField_toNat w, bField_toNat w, ?_⟩, fun hnone => ?_⟩
  · exact decode_opw_of_ofCode ((selects_iff o w).1 ho)
  · refine decode_opw_of_reserved (Option.eq_none_iff_forall_ne_some.2 fun o ho => ?_)
    rw [← selects_iff, hnone o] at ho
    cases ho

end Sys2Proof.Proofs
end

section
/-! SUPPORT. Assembly text (30_encoding.md section 7): the mnemonics of the six operations, the numerals the disassembler
prints, and the lines of each shape. -/

namespace Sys2Proof.Proofs

open Sys2Proof.Machine

/-! ### Mnemonics -/

/-- The mnemonic of an operation (R68). -/
def mnemonicOf : AluOp → List Char
  | .add => ['A', 'D', 'D']
  | .sub => ['S', 'U', 'B']
  | .and => ['A', 'N', 'D']
  | .or => ['O', 'R']
  | .xor => ['X', 'O', 'R']
  | .not => ['N', 'O', 'T']

theorem isWord_mnemonicOf (op : AluOp) : isWord (mnemonicOf op) := by
  cases op <;> simp [isWord, isWordChar, mnemonicOf]

theorem exists_mnemonicOf_of_mem {m : List Char}
    (h : m ∈ [['A', 'D', 'D'], ['S', 'U', 'B'], ['A', 'N', 'D'], ['O', 'R'], ['X', 'O', 'R'], ['N', 'O', 'T']]) :
    ∃ op, m = mnemonicOf op := by
  simp only [List.mem_cons, List.not_mem_nil, or_false] at h
  obtain rfl | rfl | rfl | rfl | rfl | rfl := h
  · exact ⟨.add, rfl⟩
  · exact ⟨.sub, rfl⟩
  · exact ⟨.and, rfl⟩
  · exact ⟨.or, rfl⟩
  · exact ⟨.xor, rfl⟩
  · exact ⟨.not, rfl⟩

/-- A mnemonic with two operands is assembled as its operation. -/
theorem assembleTokens_binary (op : AluOp) (x y : List Char) :
    assembleTokens [.word (mnemonicOf op), .word x, .comma, .word y] = assembleBinary op.instr x y := by
  cases op <;> rfl

theorem assembleTokens_unary (x : List Char) :
    assembleTokens [.word (mnemonicOf .not), .word x] = assembleNot x := rfl

/-! ### Lines -/

/-- A line `MNEMONIC x, y`, with or without a comment. -/
theorem assemble_binaryLine (op : AluOp) {x y comment : List Char} (hx : isWord x) (hy : isWord y)
    (hcomment : comment = [] ∨ ∃ cs, comment = ';' :: cs) :
    assemble (mnemonicOf op ++ ' ' :: (x ++ ',' :: ' ' :: (y ++ comment))) = assembleBinary op.instr x y := by
  rw [assemble, tokens_binaryLine (isWord_mnemonicOf op) hx hy hcomment, assembleTokens_binary]

/-- A line `NOT x`, with or without a comment. -/
theorem assemble_unaryLine {x comment : List Char} (hx : isWord x)
    (hcomment : comment = [] ∨ ∃ cs, comment = ';' :: cs) :
    assemble (mnemonicOf .not ++ ' ' :: (x ++ comment)) = assembleNot x := by
  rw [assemble, tokens_unaryLine (isWord_mnemonicOf .not) hx hcomment, assembleTokens_unary]

/-! ### Numerals in range: the disassembler's lines -/

theorem numeralValue_decimal (x : Byte) : numeralValue (decimal x) = some x.toNat := by
  revert x; decide

theorem isWord_decimal (x : Byte) : isWord (decimal x) := isWord_of_numeralValue (numeralValue_decimal x)

/-- Two numerals of bytes are assembled to those bytes. -/
theorem assembleBinary_of_byte (mk : Byte → Byte → Instr) {x y : List Char} {a b : Byte}
    (hx : numeralValue x = some a.toNat) (hy : numeralValue y = some b.toNat) :
    assembleBinary mk x y = .ok (mk a b) := by
  simp only [assembleBinary, hx, hy]
  rw [if_pos ⟨a.isLt, b.isLt⟩, BitVec.ofNat_toNat, BitVec.ofNat_toNat, BitVec.setWidth_eq, BitVec.setWidth_eq]

theorem assemble_binaryText (op : AluOp) (a b : Byte) :
    assemble (binaryText (mnemonicOf op) a b) = .ok (op.instr a b) := by
  have hline := assemble_binaryLine op (isWord_decimal a) (isWord_decimal b) (comment := []) (.inl rfl)
  rw [assembleBinary_of_byte _ (numeralValue_decimal a) (numeralValue_decimal b)] at hline
  simpa only [binaryText, List.append_assoc, List.cons_append, List.append_nil] using hline

/-- Printing NOT with `b` = 0 drops that operand, and reading the line puts it back (R64). -/
theorem assemble_notText (a : Byte) : assemble (['N', 'O', 'T', ' '] ++ decimal a) = .ok (.not a 0) := by
  have hline := assemble_unaryLine (isWord_decimal a) (comment := []) (.inl rfl)
  rw [List.append_nil, assembleNot,
    assembleBinary_of_byte .not (b := 0) (numeralValue_decimal a) (by decide)] at hline
  exact hline

theorem assemble_disassemble_not (a b : Byte) : assemble (disassemble (.not a b)) = .ok (.not a b) := by
  rw [disassemble]
  split
  case isTrue hb => rw [hb, assemble_notText]
  case isFalse => exact assemble_binaryText .not a b

/-- Settles O6: an ALU instruction's line is read back operand by operand, and a command's line is its mnemonic. -/
theorem assembleOfDisassemble : Obligations.AssembleOfDisassemble := by
  refine ⟨fun i hi => ?_, fun _ => rfl⟩
  cases i with
  | add a b => exact assemble_binaryText .add a b
  | sub a b => exact assemble_binaryText .sub a b
  | and a b => exact assemble_binaryText .and a b
  | or a b => exact assemble_binaryText .or a b
  | xor a b => exact assemble_binaryText .xor a b
  | not a b => exact assemble_disassemble_not a b
  | idle => rfl
  | advance => rfl
  | reset x => exact absurd rfl (hi x)

/-! ### Numerals out of range -/

theorem assembleBinary_of_large (mk : Byte → Byte → Instr) {x y : List Char} {m n : Nat}
    (hx : numeralValue x = some m) (hy : numeralValue y = some n) (hlarge : 256 ≤ m ∨ 256 ≤ n) :
    assembleBinary mk x y = .error .numeralOutOfRange := by
  simp only [assembleBinary, hx, hy]
  exact if_neg (by omega)

theorem assembleNot_of_large {x : List Char} {m : Nat} (hx : numeralValue x = some m) (hlarge : 256 ≤ m) :
    assembleNot x = .error .numeralOutOfRange :=
  assembleBinary_of_large .not hx (y := ['0']) (n := 0) (by decide) (.inl hlarge)

/-- Settles O7: the line's shape leads to `assembleBinary` or `assembleNot`, and both refuse a large numeral. -/
theorem assemblerRefusesLargeNumerals : Obligations.AssemblerRefusesLargeNumerals := by
  intro comment hcomment
  refine ⟨fun mnemonic x y m n hmem hx hy hlarge => ?_, fun x m hx hlarge => ?_⟩
  · obtain ⟨op, rfl⟩ := exists_mnemonicOf_of_mem hmem
    rw [assembleTokens_binary, assemble_binaryLine op (isWord_of_numeralValue hx) (isWord_of_numeralValue hy) hcomment,
      assembleBinary_of_large op.instr hx hy hlarge]
    exact ⟨rfl, rfl⟩
  · have hnot := assembleNot_of_large hx hlarge
    exact ⟨(assembleTokens_unary x).trans hnot,
      (assemble_unaryLine (isWord_of_numeralValue hx) hcomment).trans hnot⟩

end Sys2Proof.Proofs
end

section
/-! SUPPORT. Laws of the ALU (40_result_and_flags.md, 41_arithmetic.md, 42_logic.md, 43_carry_chain.md): the forms of
Carry and Overflow, the laws of ADD and SUB, and what ties the logic operations and the ripple chain to the adder. -/

namespace Sys2Proof.Proofs

open Sys2Proof.Machine

/-! ### Equal results -/

/-- Value, Carry and Overflow fix the other two flags (R81, R82). -/
theorem computationResult_eq {a b c d : Byte} {op op' : AluOp}
    (hvalue : (compute a b op).value = (compute c d op').value)
    (hcarry : (compute a b op).carry = (compute c d op').carry)
    (hoverflow : (compute a b op).overflow = (compute c d op').overflow) : compute a b op = compute c d op' := by
  have hzero : (compute a b op).zero = (compute c d op').zero := by rw [compute_zero, compute_zero, hvalue]
  have hnegative : (compute a b op).negative = (compute c d op').negative := by
    rw [compute_negative, compute_negative, hvalue]
  cases h : compute a b op
  cases h' : compute c d op'
  simp only [h, h'] at hvalue hcarry hoverflow hzero hnegative
  rw [hvalue, hcarry, hoverflow, hzero, hnegative]

/-! ### Carry and Overflow -/

/-- Settles O22: ADD's carry takes 256 off the sum, SUB's adds 256 to the difference. -/
theorem carryMarksMaskedResult : Obligations.CarryMarksMaskedResult := by
  intro a b op hop
  simp only [List.mem_cons, List.not_mem_nil, or_false] at hop
  obtain rfl | rfl := hop
  · rw [carry_add, value_add, rawResult_add, decide_eq_true_eq]
    split <;> omega
  · rw [carry_sub, value_sub, rawResult_sub, decide_eq_true_eq]
    split <;> omega

/-- With Overflow the carry out of bit 7 is not the carry into it, which is then the sign of the value. -/
theorem carry_eq_not_negative_of_overflow {a b : Byte} (h : (compute a b .add).overflow = true) :
    (compute a b .add).carry = !(compute a b .add).negative := by
  have hcarries : carryInto a b 7 ≠ (compute a b .add).carry := by
    rw [← carryInto_eight, ← bne_iff_ne, ← overflow_add_eq_carries_ne, h]
  rw [overflow_add, decide_eq_true_eq] at h
  rw [negative_eq_getLsbD, value_add_getLsbD a b (by decide), ← h.1, ← Bool.xor_assoc, Bool.xor_self, Bool.false_xor,
    Bool.eq_not]
  exact hcarries.symm

theorem op_eq_add_of_overflow {a b : Byte} {op : AluOp} (h : (compute a b op).overflow = true) : op = .add := by
  cases op with
  | add => rfl
  | sub => cases h
  | and => cases h
  | or => cases h
  | xor => cases h
  | not => cases h

theorem op_of_carry {a b : Byte} {op : AluOp} (h : (compute a b op).carry = true) : op = .add ∨ op = .sub := by
  cases op with
  | add => exact .inl rfl
  | sub => exact .inr rfl
  | and => cases h
  | or => cases h
  | xor => cases h
  | not => cases h

/-- Settles O21: a negative value is not 0, the generator sets each flag for few operations, and ADD's Overflow makes
Carry the opposite of Negative. -/
theorem unreachableFlagStrings : Obligations.UnreachableFlagStrings := by
  intro a b op
  refine ⟨fun ⟨hzero, hnegative⟩ => ?_, op_eq_add_of_overflow, op_of_carry, ?_⟩
  · have hmem := zero_negative_mem a b op
    rw [hzero, hnegative] at hmem
    exact absurd hmem (by decide)
  · rintro rfl
    refine ⟨fun ⟨hnegative, hcarry, hoverflow⟩ => ?_, fun ⟨hnegative, hcarry, hoverflow⟩ => ?_⟩
    · rw [carry_eq_not_negative_of_overflow hoverflow, hnegative] at hcarry
      cases hcarry
    · rw [carry_eq_not_negative_of_overflow hoverflow, hnegative] at hcarry
      cases hcarry

/-- The sign rule as comparisons with 128. -/
theorem overflow_add_iff (a b : Byte) : (compute a b .add).overflow = true ↔
    (128 ≤ a.toNat ↔ 128 ≤ b.toNat) ∧ ¬(128 ≤ (a.toNat + b.toNat) % 256 ↔ 128 ≤ a.toNat) := by
  have hbit (v : Byte) : v.getLsbD 7 = decide (128 ≤ v.toNat) := bitAt_seven v
  rw [overflow_add, decide_eq_true_eq, hbit, hbit, hbit, value_add_toNat, decide_eq_decide, ne_eq, decide_eq_decide]

theorem overflow_add_iff_signed_range (a b : Byte) :
    (compute a b .add).overflow = true ↔ sint8 a + sint8 b < -128 ∨ sint8 a + sint8 b > 127 := by
  have ha := a.isLt
  have hb := b.isLt
  rw [overflow_add_iff, sint8_eq, sint8_eq]
  split <;> split <;> omega

theorem sint8_value_add {a b : Byte} (h : (compute a b .add).overflow = false) :
    sint8 (compute a b .add).value = sint8 a + sint8 b := by
  have ha := a.isLt
  have hb := b.isLt
  rw [← Bool.not_eq_true, overflow_add_iff] at h
  rw [sint8_eq, value_add_toNat, sint8_eq a, sint8_eq b]
  split <;> split <;> split <;> omega

/-- Operands that agree where the value does not agree with them, as the two exclusive disjunctions. -/
theorem sign_rule_eq_and_xor (x y v : Bool) : (x == y && v != x) = ((x ^^ v) && (y ^^ v)) := by
  revert x y v; decide

/-- Settles O23, form by form: the signed range, the carries around bit 7, the two exclusive disjunctions. -/
theorem addOverflowEquivalentForms : Obligations.AddOverflowEquivalentForms := by
  intro a b
  refine ⟨overflow_add_iff_signed_range a b, ?_, ?_, sint8_value_add⟩
  · rw [overflow_add_eq_carries_ne, bne_iff_ne]
  · rw [overflow_add_eq_and, sign_rule_eq_and_xor, BitVec.getLsbD_and, BitVec.getLsbD_xor, BitVec.getLsbD_xor]

/-! ### Laws of ADD -/

theorem compute_add_comm (a b : Byte) : compute a b .add = compute b a .add := by
  refine computationResult_eq ?_ ?_ ?_
  · rw [value_add_eq_add, value_add_eq_add, BitVec.add_comm]
  · rw [carry_add, carry_add, Nat.add_comm]
  · rw [Bool.eq_iff_iff, overflow_add_iff_signed_range, overflow_add_iff_signed_range, Int.add_comm]

theorem overflow_add_zero (a : Byte) : (compute a 0 .add).overflow = false := by
  rw [overflow_add_eq_and, value_add_eq_add, BitVec.ofNat_eq_ofNat, BitVec.add_zero, bne_self_eq_false, Bool.and_false]

theorem toNat_add_eq_value_add_carry (a b : Byte) :
    a.toNat + b.toNat = (compute a b .add).value.toNat + 256 * (compute a b .add).carry.toNat := by
  have ha := a.isLt
  have hb := b.isLt
  rw [value_add_toNat, carry_add, Bool.toNat, Bool.cond_decide]
  split <;> omega

/-- Settles O24. -/
theorem addLaws : Obligations.AddLaws := by
  intro a b
  have hvalue : (compute a 0 .add).value = a := (value_add_eq_add a 0).trans (BitVec.add_zero a)
  have hcarry : (compute a 0 .add).carry = false := by
    have ha := a.isLt
    rw [carry_add, decide_eq_false_iff_not]
    exact Nat.not_lt.2 (Nat.le_of_lt_succ ha)
  exact ⟨compute_add_comm a b, hvalue, hcarry, overflow_add_zero a, toNat_add_eq_value_add_carry a b⟩

/-! ### Laws of SUB -/

theorem value_sub_toNat (a b : Byte) : (compute a b .sub).value.toNat = (a.toNat + (255 - b.toNat) + 1) % 256 := by
  have hb := b.isLt
  have hvalue := value_toNat a b .sub
  rw [rawResult_sub] at hvalue
  omega

theorem value_sub_eq_sub (a b : Byte) : (compute a b .sub).value = a - b := by
  have hb := b.isLt
  apply BitVec.eq_of_toNat_eq
  rw [value_sub_toNat, BitVec.toNat_sub]
  omega

/-- Settles O25: bit 8 of the circuit's sum says that it reaches 256, that is, that `b ≤ a`. -/
theorem subAsAdderCircuit : Obligations.SubAsAdderCircuit := by
  intro a b
  have ha := a.isLt
  have hb := b.isLt
  refine ⟨value_sub_toNat a b, ?_⟩
  rw [carry_sub, Nat.testBit_eq_decide_div_mod_eq, ← decide_not, decide_eq_decide]
  omega

theorem sint8_value_sub_iff (a b : Byte) : sint8 (compute a b .sub).value = sint8 a - sint8 b ↔
    -128 ≤ sint8 a - sint8 b ∧ sint8 a - sint8 b ≤ 127 := by
  have ha := a.isLt
  have hb := b.isLt
  rw [sint8_eq, value_sub_toNat, sint8_eq a, sint8_eq b]
  split <;> split <;> split <;> omega

/-- Settles O26; the signed difference of 127 and -1 is 128. -/
theorem subNeverReportsOverflow : Obligations.SubNeverReportsOverflow :=
  ⟨fun a b => ⟨overflow_sub a b, sint8_value_sub_iff a b⟩, 127, 255, by decide, overflow_sub _ _⟩

theorem toNat_sub_eq_value_sub_carry (a b : Byte) :
    (a.toNat : Int) - b.toNat = (compute a b .sub).value.toNat - 256 * ((compute a b .sub).carry.toNat : Int) := by
  have hrange := rawResult_sub_range a b
  rw [rawResult_sub] at hrange
  rw [value_sub, carry_sub, rawResult_sub, Bool.toNat, Bool.cond_decide]
  split <;> split <;> omega

/-- Settles O27: each law is one of `a - b` as a number, as a word, or of the comparison of `a` and `b`. -/
theorem subLaws : Obligations.SubLaws := by
  intro a b
  have ha := a.isLt
  have hb := b.isLt
  have hzero : (0 : Byte).toNat = 0 := rfl
  refine ⟨toNat_sub_eq_value_sub_carry a b, zero_sub_iff a b, ?_, ?_, ?_, ?_, ?_, ?_, ?_, fun hne => ?_⟩
  · rw [carry_sub, decide_eq_true_eq]
  · rw [zero_sub_iff, carry_sub, decide_eq_true_eq]
    rintro ⟨rfl, hlt⟩
    exact lt_irrefl _ hlt
  · exact (value_sub_eq_sub a 0).trans (BitVec.sub_zero a)
  · exact (carry_sub a 0).trans (decide_eq_false (Nat.not_lt_zero _))
  · rw [value_sub_toNat, hzero]
    omega
  · rw [carry_sub, decide_eq_decide, ne_eq, ← BitVec.toNat_inj, hzero]
    omega
  · rw [value_sub_toNat, value_sub_toNat]
    omega
  · rw [ne_eq, ← BitVec.toNat_inj] at hne
    rw [carry_sub, carry_sub, ← decide_not, decide_eq_decide]
    omega

/-! ### The logic operations and the adder -/

/-- Words without a common bit add up to their disjunction. -/
theorem toNat_or_of_and_eq_zero {x y : Byte} (h : x &&& y = 0#8) : (x ||| y).toNat = x.toNat + y.toNat := by
  rw [← BitVec.add_eq_or_of_and_eq_zero x y h, BitVec.toNat_add_of_and_eq_zero h]

theorem toNat_xor_add_and (a b : Byte) : (a ^^^ b).toNat + (a &&& b).toNat = (a ||| b).toNat := by
  have hdisjoint : (a ^^^ b) &&& (a &&& b) = 0#8 := by
    ext i hi; grind
  have hunion : (a ^^^ b) ||| (a &&& b) = a ||| b := by
    ext i hi; grind
  rw [← toNat_or_of_and_eq_zero hdisjoint, hunion]

/-- `b` outside `a` is what `b` has beyond the common bits, and what the disjunction has beyond `a`. -/
theorem toNat_and_add_or (a b : Byte) : (a &&& b).toNat + (a ||| b).toNat = a.toNat + b.toNat := by
  have hb : (a &&& b).toNat + (b &&& ~~~a).toNat = b.toNat := by
    rw [← toNat_or_of_and_eq_zero (by ext i hi; grind)]
    congr 1; ext i hi; grind
  have hor : a.toNat + (b &&& ~~~a).toNat = (a ||| b).toNat := by
    rw [← toNat_or_of_and_eq_zero (by ext i hi; grind)]
    congr 1; ext i hi; grind
  omega

/-- NOT is the exclusive disjunction with all ones. -/
theorem compute_not_eq_xor (a b : Byte) : compute a b .not = compute a 255 .xor := by
  refine computationResult_eq ?_ rfl rfl
  rw [value_not_eq_complement, value_xor]
  exact BitVec.xor_allOnes.symm

/-- NOT is the difference from 255, which never borrows. -/
theorem compute_not_eq_sub (a b : Byte) : compute a b .not = compute 255 a .sub := by
  have ha := a.isLt
  refine computationResult_eq ?_ ?_ rfl
  · rw [value_not_eq_complement, value_sub_eq_sub]
    exact (BitVec.allOnes_sub_eq_not a).symm
  · refine ((carry_sub 255 a).trans (decide_eq_false ?_)).symm
    exact Nat.not_lt.2 (Nat.le_of_lt_succ ha)

/-- Settles O28: `and` and `xor` split the bits of the operands, and NOT is compared output by output. -/
theorem logicAndAdderLaws : Obligations.LogicAndAdderLaws := by
  intro a b
  have handOr := toNat_and_add_or a b
  have hxorAnd := toNat_xor_add_and a b
  rw [value_and, value_or, value_xor, value_add_toNat]
  exact ⟨handOr, hxorAnd, congrArg (· % 256) (by omega), compute_not_eq_xor a b, compute_not_eq_sub a b⟩

/-! ### The ripple adder -/

/-- A full addition's two outputs are its sum in binary (R140, R141). -/
theorem toNat_add_eq_sumBit_add_carryOut (x y c : Bool) :
    x.toNat + y.toNat + c.toNat = (sumBit x y c).toNat + 2 * (carryOut x y c).toNat := by
  revert x y c; decide

theorem sumBit_eq_value_add (a b : Byte) {i : Nat} (hi : i < 8) :
    sumBit (a.getLsbD i) (b.getLsbD i) (carryInto a b i) = (compute a b .add).value.getLsbD i := by
  rw [value_add_getLsbD a b hi, sumBit_eq, Bool.xor_assoc]

/-- Settles O30: the chain's entries are the adder's carries, and each position is a full addition. -/
theorem rippleSumIsTheAddValue : Obligations.RippleSumIsTheAddValue := by
  intro a b i hi
  rw [carryChain_getD a b (show i < 9 by omega), carryChain_getD a b (show i + 1 < 9 by omega), carryInto_succ,
    ← sumBit_eq_value_add a b hi]
  exact ⟨rfl, toNat_add_eq_sumBit_add_carryOut ..⟩

end Sys2Proof.Proofs
end

section
/-! SUPPORT. Reports and commands (43_carry_chain.md section 2, 44_step_sequencer.md sections 2 and 3): what the LOAD, LATCH,
BIT and OUTPUT steps say of the ALU's value, and what the commands do whatever stands on the lines. -/

namespace Sys2Proof.Proofs

open Sys2Proof.Machine

/-! ### What the replay says of the value -/

/-- The result bit, defined operation by operation, is the bit of the masked value (R161 to R164). -/
theorem resultBitAt_eq_value_getLsbD (op : AluOp) (a b : Byte) {p : Nat} (hp : p < 8) :
    resultBitAt op a b p = (compute a b op).value.getLsbD p := by
  cases op with
  | add => exact sumBit_eq_value_add a b hp
  | sub => rfl
  | and => exact (value_and_getLsbD a b p).symm
  | or => exact (value_or_getLsbD a b p).symm
  | xor => rw [value_xor_getLsbD, Bool.bne_eq_xor]; rfl
  | not => exact (value_not_getLsbD a b hp).symm

theorem describeStep_report_ten (a b : Byte) (op : AluOp) :
    (describeStep a b op 10).report = .output (compute a b op).value (signedReport a b op) := rfl

/-- Settles O36: position `p` is reported at step `p + 2`. -/
theorem replayReportsTheAluValue : Obligations.ReplayReportsTheAluValue := by
  intro a b op
  refine ⟨fun p => ?_, signedReport a b op, describeStep_report_ten a b op⟩
  have hp := p.isLt
  exact ⟨⟨p.val + 2, by omega⟩, bitReport a b op p, rfl, describeStep_report_of_bit rfl a b op, rfl,
    resultBitAt_eq_value_getLsbD op a b hp⟩

/-- A signed number is present for a SUB below zero and for nothing else (R165). -/
theorem signedReport_ne_none_iff (a b : Byte) (op : AluOp) :
    signedReport a b op ≠ none ↔ op = .sub ∧ rawResult .sub a b < 0 := by
  cases op with
  | sub => by_cases hneg : rawResult .sub a b < 0 <;> simp [signedReport, hneg]
  | add => simp [signedReport]
  | and => simp [signedReport]
  | or => simp [signedReport]
  | xor => simp [signedReport]
  | not => simp [signedReport]

/-- From -128 up the signed number is the true difference. -/
theorem signedReport_of_inRange {a b : Byte} (hge : -128 ≤ rawResult .sub a b) (hneg : rawResult .sub a b < 0) :
    signedReport a b .sub = some (rawResult .sub a b) := by
  simp only [signedReport, hneg, hge, if_true]

/-- From -128 to -1 the difference wraps into the negative bytes. -/
theorem sint8_value_sub_of_negative {a b : Byte} (hge : -128 ≤ rawResult .sub a b) (hneg : rawResult .sub a b < 0) :
    sint8 (compute a b .sub).value = rawResult .sub a b := by
  have hvalue := value_sub a b
  rw [if_pos hneg] at hvalue
  rw [sint8_eq]
  split <;> omega

theorem highlightedAt_output_getLsbD {i : Nat} (hi : i < 8) : (highlightedAt .output).getLsbD i = true := by
  rw [highlightedAt, BitVec.getLsbD_ofNat, Nat.testBit_two_pow_sub_one, decide_eq_true hi, Bool.and_self]

/-- Settles O37: SUB's borrow is the sign of the true difference. -/
theorem outputStepReport : Obligations.OutputStepReport := by
  intro a b op
  refine ⟨signedReport a b op, describeStep_report_ten a b op, fun _ => highlightedAt_output_getLsbD, ?_, ?_⟩
  · rw [signedReport_ne_none_iff, compute_carry, carryFlag, decide_eq_true_eq]
  · rintro rfl hge hneg
    rw [← rawResult_sub] at hge hneg ⊢
    rw [signedReport_of_inRange hge hneg, sint8_value_sub_of_negative hge hneg]
    exact ⟨rfl, rfl⟩

/-- Settles O34: the first two rows of R150's table, whatever the operation. -/
theorem loadAndLatchReports : Obligations.LoadAndLatchReports := by
  intro a b op
  exact ⟨rfl, rfl, rfl, rfl⟩

/-! ### The chain field -/

theorem chainField_eq_ite (op : AluOp) (a b : Byte) :
    chainField op a b = if op = .add then some (carryChain a b) else none := by
  cases op <;> rfl

theorem chainValid_of_reserved {s : State} (h : 6 ≤ s.host.op.toNat) : chainValid s = none := by
  rw [chainValid, (AluOp.ofCode_eq_none_iff _).2 h, Option.map_none]

/-- Settles O32: field and pin ask the same question of `op`, and no step enters into it. -/
theorem chainFieldForAddOnly : Obligations.ChainFieldForAddOnly := by
  refine ⟨fun a b op _ => chainField_eq_ite op a b, fun s op hop => ⟨chainValid_of_code hop, ?_⟩,
    fun _ => chainValid_of_reserved⟩
  have hfield : (describeStep s.host.a s.host.b op s.block.cursor).carryChain ≠ none ↔ op = .add := by
    rw [← Option.isSome_iff_ne_none, ← decide_eq_true_iff (p := op = .add)]
    exact Bool.eq_iff_iff.1 (chainField_isSome op _ _)
  rw [chainValid_of_code hop, stepDataOut_of_code hop]
  simp [hfield]

/-! ### The commands and the lines -/

/-- Settles O16: an ALU instruction writes the lines alone. -/
theorem operationsLeaveTheCursor : Obligations.OperationsLeaveTheCursor := by
  intro op a b s
  exact ⟨driveLines a b op.code s, exec_aluInstr op a b s, driveLines_block .., driveLines_pending .., driveLines_a ..,
    driveLines_b .., driveLines_op ..⟩

/-- Settles O40: RESET does not read the bit beside it. -/
theorem resetWinsOverAdvance : Obligations.ResetWinsOverAdvance := by
  refine ⟨by decide, fun s => ⟨?_, setCursor 0 s, exec_reset true s, congrArg Fin.val (setCursor_cursor 0 s),
    setCursor_host 0 s⟩⟩
  rw [exec_reset, exec_reset]

theorem exec_idle (s : State) : exec .idle s = .next s := rfl

/-- Settles O41. -/
theorem idleHoldsTheCursor : Obligations.IdleHoldsTheCursor := by
  intro s
  exact ⟨exec_idle s, step_of_nil⟩

/-- A command on other lines leaves what it leaves on these, with the other lines (R156). -/
theorem exec_command_driveLines {i : Instr} (hi : i ∈ [Instr.idle, .advance, .reset false, .reset true]) (s : State)
    (a b : Byte) (op : OpCode) :
    ∃ t, exec i s = .next t ∧ exec i (driveLines a b op s) = .next (driveLines a b op t) := by
  simp only [List.mem_cons, List.not_mem_nil, or_false] at hi
  obtain rfl | rfl | rfl | rfl := hi
  · exact ⟨s, exec_idle s, exec_idle _⟩
  · exact ⟨_, exec_advance s, exec_advance _⟩
  · exact ⟨_, exec_reset false s, exec_reset false _⟩
  · exact ⟨_, exec_reset true s, exec_reset true _⟩

/-- Settles O42: neither R150's table nor a command reads the lines, and a change of the lines writes nothing else. -/
theorem commandsIgnoreTheInputLines : Obligations.CommandsIgnoreTheInputLines := by
  intro s a b op
  refine ⟨fun _ _ _ => rfl, fun i hi => exec_command_driveLines hi s a b op, fun rest hpending => ?_⟩
  exact ⟨driveLines a b op { s with host := { s.host with pending := rest } }, step_of_cons hpending,
    driveLines_block .., rfl⟩

/-- Settles O45: eleven indices fit the port's four bits. -/
theorem cursorPortShowsTheStep : Obligations.CursorPortShowsTheStep := by
  intro s
  have hcursor := s.block.cursor.isLt
  have hport : (cursorPort s).toNat = s.block.cursor.val := by
    rw [cursorPort, BitVec.toNat_ofNat]
    omega
  exact ⟨hport, by omega⟩

/-- Settles O54, by evaluation in the one state it speaks of. -/
theorem resetShowsStepZero : Obligations.ResetShowsStepZero := by
  unfold Obligations.ResetShowsStepZero
  decide

end Sys2Proof.Proofs
end

section
/-! SUPPORT. Requests (20_memory.md section 4, 60_exceptions.md section 1): what serving each kind of request answers, which
requests are refused, and that reads and changed lines leave the cursor. -/

namespace Sys2Proof.Proofs

open Sys2Proof.Machine

/-! ### The step indices and the operands of the contract -/

@[simp] theorem stepIndexOf_cursor (k : Cursor) : stepIndexOf (k.val : Int) = some k :=
  (stepIndexOf_eq_some_iff _ k).2 rfl

theorem stepIndexOf_eq_none {k : Int} (h : k < 0 ∨ 10 < k) : stepIndexOf k = none := by
  refine Option.eq_none_iff_forall_ne_some.2 fun c hc => ?_
  have hk := (stepIndexOf_eq_some_iff k c).1 hc
  omega

theorem exists_cursor_of_range {k : Int} (h : 0 ≤ k ∧ k ≤ 10) : ∃ c : Cursor, k = (c.val : Int) :=
  ⟨⟨k.toNat, by omega⟩, (Int.toNat_of_nonneg h.1).symm⟩

theorem isOperand_toNat (x : Byte) : isOperand (x.toNat : Int) = true := by
  have hx := x.isLt
  rw [isOperand, decide_eq_true_eq]
  omega

theorem isOperand_eq_false {x : Int} (h : x < 0 ∨ 255 < x) : isOperand x = false := by
  rw [isOperand, decide_eq_false_iff_not]
  omega

/-! ### What serving each kind of request answers -/

theorem serve_present (a b : Byte) (op : OpCode) (s : State) :
    serve (.present a b op) s = .next (driveLines a b op s) := rfl

theorem serve_hardwareReset (s : State) : serve .hardwareReset s = .next (setCursor 0 s) := rfl

theorem serve_evaluate_of_legal {s : State} {op : AluOp} (h : AluOp.ofCode s.host.op = some op) :
    serve .evaluate s = .next s := by
  simp only [serve, serveEvaluate, aluOutputs, h, Option.map_some]

theorem serve_evaluate_of_reserved {s : State} (h : AluOp.ofCode s.host.op = none) :
    serve .evaluate s = .refused .reservedOperation := by
  simp only [serve, serveEvaluate, aluOutputs, h, Option.map_none]

theorem serve_describe_of_legal {s : State} {op : AluOp} (h : AluOp.ofCode s.host.op = some op) (k : Cursor) :
    serve (.describe (k.val : Int)) s = .next s := by
  simp only [serve, serveDescribe, stepIndexOf_cursor, h]

theorem serve_describe_of_reserved {s : State} (h : AluOp.ofCode s.host.op = none) (k : Cursor) :
    serve (.describe (k.val : Int)) s = .refused .reservedOperation := by
  simp only [serve, serveDescribe, stepIndexOf_cursor, h]

theorem serve_describe_of_outOfRange {k : Int} (h : k < 0 ∨ 10 < k) (s : State) :
    serve (.describe k) s = .refused .stepIndexOutOfRange := by
  simp only [serve, serveDescribe, stepIndexOf_eq_none h]

theorem serve_call_of_legal {x y : Int} {op : OpCode} {o : AluOp} (hx : isOperand x = true) (hy : isOperand y = true)
    (ho : AluOp.ofCode op = some o) (s : State) :
    serve (.call x y op) s = exec (o.instr (mask8 x) (mask8 y)) s := by
  simp only [serve, serveCall, hx, hy, ho, Bool.and_self, if_true, mask8]

theorem serve_call_of_reserved {x y : Int} {op : OpCode} (hx : isOperand x = true) (hy : isOperand y = true)
    (ho : AluOp.ofCode op = none) (s : State) :
    serve (.call x y op) s = .refused .reservedOperation := by
  simp only [serve, serveCall, hx, hy, ho, Bool.and_self, if_true]

theorem serve_call_of_outOfRange {x y : Int} (h : isOperand x = false ∨ isOperand y = false) (op : OpCode)
    (s : State) : serve (.call x y op) s = .refused .operandOutOfRange := by
  have hboth : ¬(isOperand x && isOperand y) = true := by
    rw [Bool.not_eq_true, Bool.and_eq_false_iff]
    exact h
  exact if_neg hboth

/-! ### Words -/

/-- Settles O46: the step takes the request from the list and serves the decoded word. -/
theorem stepRunsTheDecodedInstruction : Obligations.StepRunsTheDecodedInstruction := by
  intro s w i rest hpending hdecode _
  rw [step_of_cons hpending, serve_issue_of_decode hdecode]

/-- Settles O53: both send the cursor of the state without the request to 0. -/
theorem hardwareResetIsTheResetCommand : Obligations.HardwareResetIsTheResetCommand := by
  intro s rest hpending
  have hstep := (step_of_cons hpending).trans (serve_hardwareReset { s with host := { s.host with pending := rest } })
  exact ⟨_, hstep, congrArg Fin.val (setCursor_cursor ..), setCursor_host .., exec_reset false _⟩

/-! ### Reads and changed lines -/

theorem stepDataAt_of_legal {s : State} {op : AluOp} (h : AluOp.ofCode s.host.op = some op) (k : Cursor) :
    stepDataAt s (k.val : Int) = some (describeStep s.host.a s.host.b op k) := by
  simp only [stepDataAt, h, stepIndexOf_cursor]

theorem stepDataAt_of_outOfRange {k : Int} (h : k < 0 ∨ 10 < k) (s : State) : stepDataAt s k = none := by
  simp only [stepDataAt, stepIndexOf_eq_none h]
  cases AluOp.ofCode s.host.op <;> rfl

/-- Settles O48: with a legal code both reads answer the state without the request. -/
theorem readsChangeNothing : Obligations.ReadsChangeNothing := by
  intro s op rest hop
  have hlegal : AluOp.ofCode s.host.op = some op := by rw [hop, AluOp.ofCode_code]
  refine ⟨fun hpending => ?_, fun k hpending => ⟨?_, stepDataAt_of_legal hlegal k⟩⟩
  · rw [step_of_cons hpending]
    exact serve_evaluate_of_legal hlegal
  · rw [step_of_cons hpending]
    exact serve_describe_of_legal (s := { s with host := { s.host with pending := rest } }) hlegal k

/-- Settles O49: outputs and step data are functions of the lines just driven and of the cursor, which they leave. -/
theorem changedInputsShowAtOnce : Obligations.ChangedInputsShowAtOnce := by
  intro s a b op rest hpending
  refine ⟨driveLines a b op.code { s with host := { s.host with pending := rest } }, ?_, driveLines_block ..,
    aluOutputs_driveLines .., stepDataOut_of_code (driveLines_op ..)⟩
  rw [step_of_cons hpending, serve_present]

/-! ### Refusals -/

theorem aluOutputs_of_reserved {s : State} (h : AluOp.ofCode s.host.op = none) : aluOutputs s = none := by
  rw [aluOutputs, h, Option.map_none]

theorem stepDataOut_of_reserved {s : State} (h : AluOp.ofCode s.host.op = none) : stepDataOut s = none := by
  rw [stepDataOut, h, Option.map_none]

/-- A word above the last row of the opcode map carries a reserved code (R66). -/
theorem ofCode_opField_eq_none {w : BitVec 19} (h : 0x60000 ≤ w.toNat) : AluOp.ofCode (opField w) = none := by
  rw [AluOp.ofCode_eq_none_iff, opField_toNat]
  omega

/-- Settles O50: the decoder rejects the word, and the reads and the call find no operation for the code. -/
theorem reservedOperationIsRefused : Obligations.ReservedOperationIsRefused := by
  refine ⟨fun s w rest hw hpending => ?_, fun s hop => ?_, fun s a b op rest hop hpending => ?_⟩
  · rw [step_of_cons hpending]
    exact serve_issue_of_invalid (decode_opw_of_reserved (ofCode_opField_eq_none hw)) _
  · have hreserved := (AluOp.ofCode_eq_none_iff _).2 hop
    refine ⟨aluOutputs_of_reserved hreserved, stepDataOut_of_reserved hreserved, fun rest hpending => ?_,
      fun k rest hpending => ?_⟩
    · rw [step_of_cons hpending]
      exact serve_evaluate_of_reserved hreserved
    · rw [step_of_cons hpending]
      exact serve_describe_of_reserved (s := { s with host := { s.host with pending := rest } }) hreserved k
  · rw [step_of_cons hpending]
    exact serve_call_of_reserved (isOperand_toNat a) (isOperand_toNat b) ((AluOp.ofCode_eq_none_iff _).2 hop) _

/-- Settles O51: the range check comes before any mask, and masking a byte changes nothing. -/
theorem operandOutOfRangeIsRefused : Obligations.OperandOutOfRangeIsRefused := by
  intro s rest
  refine ⟨fun x y op hpending hrange => ?_, fun a b op hpending => ?_⟩
  · have houtside : isOperand x = false ∨ isOperand y = false :=
      (or_assoc.2 hrange).imp isOperand_eq_false isOperand_eq_false
    rw [step_of_cons hpending, serve_call_of_outOfRange houtside]
  · have hmask (x : Byte) : mask8 (x.toNat : Int) = x := mask8_unsigned x
    rw [step_of_cons hpending, serve_call_of_legal (isOperand_toNat a) (isOperand_toNat b) (AluOp.ofCode_code op),
      hmask, hmask]

/-- Settles O52: the index is checked first, and an index out of range names no step. -/
theorem stepIndexOutOfRangeIsRefused : Obligations.StepIndexOutOfRangeIsRefused := by
  intro s k rest hpending hrange
  refine ⟨?_, stepDataAt_of_outOfRange hrange s⟩
  rw [step_of_cons hpending, serve_describe_of_outOfRange hrange]

end Sys2Proof.Proofs
end

section
/-! SUPPORT. The cursor and the contract (10_state.md section 4, 44_step_sequencer.md section 2, 60_exceptions.md section 1):
what a served request can do, said once, and what follows of it for a step and for a run. -/

namespace Sys2Proof.Proofs

open Sys2Proof.Machine

/-! ### What a served request can do -/

/-- What serving `r` in `s` can leave: nothing changed, or the lines, or the cursor as an ADVANCE or a RESET leaves it. A
request within the contract drives a legal code. -/
inductive Effect (r : Request) (s : State) : State → Prop where
  | hold (hreset : r.isReset = false) (hadvance : r.isAdvance = false) : Effect r s s
  | drive (hreset : r.isReset = false) (hadvance : r.isAdvance = false) (a b : Byte) (op : OpCode)
      (hlegal : r.inContract = true → legalCode op = true) : Effect r s (driveLines a b op s)
  | advance (hreset : r.isReset = false) (hadvance : r.isAdvance = true) :
      Effect r s (setCursor (cursorAfterAdvance s.block.cursor) s)
  | reset (hreset : r.isReset = true) : Effect r s (setCursor 0 s)

/-- The four patterns of `seq_cmd` by what they ask for (R70). -/
theorem decodeSeq_cases (c : BitVec 2) :
    (decodeSeq c = .idle ∧ Request.isReset (.issue (.seq c)) = false ∧ Request.isAdvance (.issue (.seq c)) = false) ∨
    (decodeSeq c = .advance ∧ Request.isReset (.issue (.seq c)) = false ∧
      Request.isAdvance (.issue (.seq c)) = true) ∨
    (∃ x, decodeSeq c = .reset x ∧ Request.isReset (.issue (.seq c)) = true) := by
  revert c; decide

theorem effect_of_serve_seq {c : BitVec 2} {s t : State} (h : serve (.issue (.seq c)) s = .next t) :
    Effect (.issue (.seq c)) s t := by
  rw [serve_issue_of_decode (i := decodeSeq c) rfl] at h
  obtain ⟨hc, hreset, hadvance⟩ | ⟨hc, hreset, hadvance⟩ | ⟨x, hc, hreset⟩ := decodeSeq_cases c
  · rw [hc] at h; cases h; exact .hold hreset hadvance
  · rw [hc] at h; cases h; exact .advance hreset hadvance
  · rw [hc] at h; cases h; exact .reset hreset

theorem effect_of_serve_opw {w : BitVec 19} {s t : State} (h : serve (.issue (.opw w)) s = .next t) :
    Effect (.issue (.opw w)) s t := by
  cases hop : AluOp.ofCode (opField w) with
  | none => rw [serve_issue_of_invalid (decode_opw_of_reserved hop)] at h; cases h
  | some op =>
    rw [serve_issue_of_decode (decode_opw_of_ofCode hop)] at h
    rw [eq_driveLines_of_exec h]
    exact .drive rfl rfl _ _ _ fun _ => legalCode_code op

theorem effect_of_serve_evaluate {s t : State} (h : serve .evaluate s = .next t) : Effect .evaluate s t := by
  cases hop : AluOp.ofCode s.host.op with
  | none => rw [serve_evaluate_of_reserved hop] at h; cases h
  | some op => rw [serve_evaluate_of_legal hop] at h; cases h; exact .hold rfl rfl

theorem effect_of_serve_describe {k : Int} {s t : State} (h : serve (.describe k) s = .next t) :
    Effect (.describe k) s t := by
  by_cases hk : 0 ≤ k ∧ k ≤ 10
  · obtain ⟨c, rfl⟩ := exists_cursor_of_range hk
    cases hop : AluOp.ofCode s.host.op with
    | none => rw [serve_describe_of_reserved hop] at h; cases h
    | some op => rw [serve_describe_of_legal hop] at h; cases h; exact .hold rfl rfl
  · rw [serve_describe_of_outOfRange (by omega)] at h; cases h

theorem effect_of_serve_call {x y : Int} {op : OpCode} {s t : State} (h : serve (.call x y op) s = .next t) :
    Effect (.call x y op) s t := by
  by_cases hxy : isOperand x = true ∧ isOperand y = true
  · obtain ⟨hx, hy⟩ := hxy
    cases ho : AluOp.ofCode op with
    | none => rw [serve_call_of_reserved hx hy ho] at h; cases h
    | some o =>
      rw [serve_call_of_legal hx hy ho] at h
      rw [eq_driveLines_of_exec h]
      exact .drive rfl rfl _ _ _ fun _ => legalCode_code o
  · rw [serve_call_of_outOfRange (by simpa only [not_and_or, Bool.not_eq_true] using hxy)] at h; cases h

/-- Whatever is served has one of the four effects. -/
theorem effect_of_serve {r : Request} {s t : State} (h : serve r s = .next t) : Effect r s t := by
  cases r with
  | issue w =>
    cases w with
    | opw w => exact effect_of_serve_opw h
    | seq c => exact effect_of_serve_seq h
    | other nbits w => rw [serve_issue_of_invalid (why := .noSuchFormat) rfl] at h; cases h
  | present a b op => cases h; exact .drive rfl rfl a b op id
  | evaluate => exact effect_of_serve_evaluate h
  | describe k => exact effect_of_serve_describe h
  | call x y op => exact effect_of_serve_call h
  | hardwareReset => cases h; exact .reset rfl

/-! ### What the four effects have in common -/

theorem Effect.pending_eq {r : Request} {s t : State} (h : Effect r s t) : t.host.pending = s.host.pending := by
  cases h <;> rfl

/-- The cursor's own state machine, for one request. -/
theorem Effect.cursor_eq {r : Request} {s t : State} (h : Effect r s t) :
    t.block.cursor.val = if r.isReset then 0 else if r.isAdvance then min (s.block.cursor.val + 1) 10
      else s.block.cursor.val := by
  cases h with
  | hold hreset hadvance => simp [hreset, hadvance]
  | drive hreset hadvance => simp [hreset, hadvance]
  | advance hreset hadvance => simp [hreset, hadvance, cursorAfterAdvance_val]
  | reset hreset => simp [hreset]

theorem Effect.legalCode_of_inContract {r : Request} {s t : State} (h : Effect r s t) (hr : r.inContract = true)
    (hs : legalCode s.host.op = true) : legalCode t.host.op = true := by
  cases h with
  | hold => exact hs
  | drive _ _ _ _ _ hlegal => exact hlegal hr
  | advance => exact hs
  | reset => exact hs

/-! ### Which steps move the cursor -/

/-- Settles O47: with a request the cursor's state machine decides, without one nothing changes. -/
theorem onlyCommandsMoveTheCursor : Obligations.OnlyCommandsMoveTheCursor := by
  intro s t hstep
  cases hpending : s.host.pending with
  | nil =>
    rw [step_of_nil hpending] at hstep
    cases hstep
    exact .inl rfl
  | cons r rest =>
    rw [step_of_cons hpending] at hstep
    have hcursor := (effect_of_serve hstep).cursor_eq
    split at hcursor
    case isTrue hreset => exact .inr (.inr ⟨r, rest, rfl, hreset, hcursor⟩)
    case isFalse =>
      split at hcursor
      case isTrue hadvance => exact .inr (.inl ⟨r, rest, rfl, hadvance, hcursor⟩)
      case isFalse => exact .inl (Fin.ext hcursor)

theorem replayComplete_iff (s : State) : replayComplete s = true ↔ s.block.cursor.val = 10 := by
  rw [replayComplete, beq_iff_eq, Fin.ext_iff]
  rfl

/-- ADVANCE at the last step writes the cursor it found (R152). -/
theorem exec_advance_of_complete {s : State} (h : s.block.cursor.val = 10) : exec .advance s = .next s := by
  have hcursor : cursorAfterAdvance s.block.cursor = s.block.cursor :=
    Fin.ext (by rw [cursorAfterAdvance_val]; omega)
  rw [exec_advance, hcursor, setCursor_self]

/-- Settles O44: of the three ways a step can leave the cursor, holding and advancing keep it at 10. -/
theorem completeReplayIsAbsorbing : Obligations.CompleteReplayIsAbsorbing := by
  intro s hcomplete
  rw [replayComplete_iff] at hcomplete
  refine ⟨exec_advance_of_complete hcomplete, fun t hstep => ?_⟩
  rw [replayComplete_iff]
  obtain hhold | ⟨r, rest, -, -, hadvance⟩ | ⟨r, rest, hpending, hreset, -⟩ := onlyCommandsMoveTheCursor s t hstep
  · exact .inl (hhold ▸ hcomplete)
  · exact .inl (by omega)
  · exact .inr ⟨r, rest, hpending, hreset⟩

/-! ### The contract -/

theorem exec_completes (i : Instr) (s : State) : ∃ t, exec i s = .next t := by
  cases i <;> exact ⟨_, rfl⟩

/-- A request within the contract is served while a legal code stands on `op` (R181). -/
theorem serve_completes {r : Request} {s : State} (hr : r.inContract = true) (hs : legalCode s.host.op = true) :
    ∃ t, serve r s = .next t := by
  obtain ⟨op, hop⟩ := (legalCode_iff _).1 hs
  cases r with
  | issue w =>
    obtain ⟨i, hi⟩ := decode_of_wellFormed hr
    rw [serve_issue_of_decode hi]
    exact exec_completes i s
  | present a b op => exact ⟨_, serve_present a b op s⟩
  | evaluate => exact ⟨s, serve_evaluate_of_legal hop⟩
  | describe k =>
    obtain ⟨c, rfl⟩ := exists_cursor_of_range (of_decide_eq_true hr)
    exact ⟨s, serve_describe_of_legal hop c⟩
  | call x y code =>
    simp only [Request.inContract, Bool.and_eq_true] at hr
    obtain ⟨⟨hx, hy⟩, hcode⟩ := hr
    obtain ⟨o, ho⟩ := (legalCode_iff code).1 hcode
    rw [serve_call_of_legal hx hy ho]
    exact exec_completes _ s
  | hardwareReset => exact ⟨_, serve_hardwareReset s⟩

/-- A step within the contract takes its request, moves the cursor as the request alone says, and keeps the contract. -/
theorem step_of_inContract_cons {s : State} {r : Request} {rest : List Request} (h : InContract s)
    (hpending : s.host.pending = r :: rest) :
    ∃ t, step s = .next t ∧ t.block.cursor.val = cursorAfter s.block.cursor.val [r] ∧ t.host.pending = rest ∧
      InContract t := by
  obtain ⟨hlegal, hall⟩ := h
  rw [hpending, List.all_cons, Bool.and_eq_true] at hall
  obtain ⟨hr, hrest⟩ := hall
  obtain ⟨t, ht⟩ := serve_completes (s := { s with host := { s.host with pending := rest } }) hr hlegal
  have heffect := effect_of_serve ht
  have hpendingAfter : t.host.pending = rest := heffect.pending_eq
  refine ⟨t, (step_of_cons hpending).trans ht, heffect.cursor_eq, hpendingAfter,
    heffect.legalCode_of_inContract hr hlegal, ?_⟩
  rw [hpendingAfter]
  exact hrest

/-- Settles O55: a step without a request changes nothing, and one with a request keeps the contract. -/
theorem contractIsKeptByEveryStep : Obligations.ContractIsKeptByEveryStep := by
  intro s h
  cases hpending : s.host.pending with
  | nil => exact ⟨s, step_of_nil hpending, h⟩
  | cons r rest =>
    obtain ⟨t, hstep, -, -, ht⟩ := step_of_inContract_cons h hpending
    exact ⟨t, hstep, ht⟩

/-- Settles O56: the code on the lines at reset is ADD's, and no request is pending. -/
theorem resetMeetsTheContract : Obligations.ResetMeetsTheContract :=
  ⟨legalCode_code .add, rfl⟩

theorem cursorAfter_cons (c : Nat) (r : Request) (rs : List Request) :
    cursorAfter c (r :: rs) = cursorAfter (cursorAfter c [r]) rs := rfl

/-- Settles O57, by induction on the requests of the run: each step is one transition of the cursor's state machine. -/
theorem cursorFollowsTheCommandsAlone : Obligations.CursorFollowsTheCommandsAlone := by
  intro s rs rest
  induction rs generalizing s with
  | nil => exact fun h hpending => ⟨s, rfl, rfl, hpending, h⟩
  | cons r rs ih =>
    intro h hpending
    obtain ⟨t, hstep, hcursor, hrest, ht⟩ := step_of_inContract_cons h hpending
    obtain ⟨u, hrun, hcursorAfter, hpendingAfter, hu⟩ := ih t ht hrest
    refine ⟨u, (run_succ_of_next hstep rs.length).trans hrun, ?_, hpendingAfter, hu⟩
    rw [cursorAfter_cons, ← hcursor, hcursorAfter]

end Sys2Proof.Proofs
end
